-- ==== Sys2Proof/Word.lean ====
section
/-! DEFINITION. The byte, the operation word, and the two forms in which a host presents
something to the codec block: spec/00_scope.md R7, spec/30_encoding.md R52 and R58. -/

namespace Sys2Proof

/-- A byte, bit 7 the most significant (R7). -/
abbrev Byte := BitVec 8

/-- The operation word `op[11:8] ++ data[7:0]` (R58). -/
abbrev OpWord := BitVec 12

/-- What a host presents in one piece. -/
inductive Presented where
  /-- An operation word, and beside it the byte sequence that SER.ENC takes as its payload (R58). -/
  | op (word : OpWord) (payload : List Byte)
  /-- A stretch of the input byte stream, first byte first: the bytes of one packet (R50, R52), or any
  others (R21). -/
  | wire (bytes : List Byte)
deriving DecidableEq, Repr

end Sys2Proof
end

