-- ==== Sys2Proof/Config.lean ====
section
/-! DEFINITION. The block's parameters (spec/00_scope.md R6), the values that the spec leaves
open, and the one value this model chooses for a cell nothing has written.
The values the spec takes for the parameters stand in Machine/Operands.lean, as `params`. -/

namespace Sys2Proof

/-- The parameters of R6 that a model takes as an argument. -/
structure Params where
  /-- `MAXLEN`, the overrun threshold (D8). -/
  maxLen : Nat
  /-- `HDR_MISMATCH_CLEARS`: whether a byte rejected in the header window empties the buffer (D9). -/
  hdrMismatchClears : Bool
deriving DecidableEq, Repr

/-- `BUFCAP`, the number of byte cells of the accumulation buffer (R6). -/
def Params.bufCap (P : Params) : Nat := P.maxLen + 1

/-- `LENW`, the least number of bits that holds `BUFCAP` (R6). -/
def Params.lenW (P : Params) : Nat := Nat.log2 P.bufCap + 1

/-- `PAYMAX`, the longest payload the serializer accepts (R6, D14). -/
def Params.payMax (P : Params) : Nat := P.maxLen - 6

/-- The constraint R6 puts on `MAXLEN`. -/
abbrev Params.Legal (P : Params) : Prop := 20 ≤ P.maxLen

/-- `NINST`, the number of independent copies of the block: the source's system has two (R6, D20). -/
abbrev ninst : Nat := 2

/-- What a buffer cell reads as while nothing has written it.
DESIGN CHOICE (log entry 1): R20 leaves the cells unspecified, and no rule reads one. -/
def Config.unwrittenCell : Byte := 0x00

/-- The baud rates the baud-rate packet builder recognises (R137). -/
inductive BaudRate where
  | r50000 | r100000 | r250000 | r500000 | r1000000
deriving DecidableEq, Repr

/-- `BAUD_CODE`, the adapter's code of a baud rate: OPEN in the spec (R137, D22, U16; log entry 9). -/
opaque Config.baudCode : BaudRate → Byte

/-- `BAUD_PAY`, how the code is placed in the two payload bytes of a set-baud-rate request:
OPEN in the spec (R137, D22, U16; log entry 9). -/
opaque Config.baudPay : Byte → Byte × Byte

end Sys2Proof
end

