-- ==== Sys2Proof/Machine/Operands.lean ====
section
/-! DEFINITION. The block's constants and parameter values (spec/00_scope.md R5 and R6), the
command table (spec/30_encoding.md R53 and R54), and the byte layout of a packet (R50). -/

namespace Sys2Proof.Machine

/-- The parameter values this spec takes: `MAXLEN` = 39, `HDR_MISMATCH_CLEARS` = true (R6, D8, D9). -/
def params : Params := { maxLen := 39, hdrMismatchClears := true }

/-- `HDR[0]` (R5). -/
abbrev hdr0 : Byte := 0x24
/-- `HDR[1]` (R5). -/
abbrev hdr1 : Byte := 0x43
/-- `STOP[0]` (R5). -/
abbrev stop0 : Byte := 0x0A
/-- `STOP[1]` (R5). -/
abbrev stop1 : Byte := 0x0D

/-- `HDR[n]`, the byte the header window expects at buffer length `n` < 2 (R5, R84). -/
def hdr (n : Nat) : Byte := if n = 0 then hdr0 else hdr1

/-- `MINLEN`, header, command, checksum and stop marker (R5). -/
abbrev minLen : Nat := 6

/-! The nine assigned command codes (R53). -/

abbrev codeSetbaudReq : Byte := 0x42
abbrev codeSetbaudRsp : Byte := 0x39
abbrev codeSenddataReq : Byte := 0x54
abbrev codeSenddataRsp : Byte := 0x38
abbrev codeGetverReq : Byte := 0x56
abbrev codeGetverRsp : Byte := 0x40
abbrev codeSetdataReq : Byte := 0x58
abbrev codeSetdataRsp : Byte := 0x33
abbrev codeRecvdata : Byte := 0x36

/-- The closed enumeration of R53, in the spec's order. -/
def assignedCodes : List Byte :=
  [codeSetbaudReq, codeSetbaudRsp, codeSenddataReq, codeSenddataRsp, codeGetverReq,
   codeGetverRsp, codeSetdataReq, codeSetdataRsp, codeRecvdata]

/-- Whether a code is one of the nine (R53). -/
def assigned (c : Byte) : Bool := assignedCodes.contains c

/-- `EXT(c)`, the payload bytes that a command code implies (R54). -/
def ext (c : Byte) : Nat :=
  if c = codeSetbaudReq ∨ c = codeSetbaudRsp ∨ c = codeGetverRsp then 2
  else if c = codeSetdataReq ∨ c = codeRecvdata then 14
  else 0

/-- The bytes that the checksum covers: header, command and payload (R78; C1). -/
def covered (c : Byte) (p : List Byte) : List Byte := hdr0 :: hdr1 :: c :: p

/-- The layout of a packet with command `c`, payload `p` and checksum field `k` (R50). -/
def packetBytes (c : Byte) (p : List Byte) (k : Byte) : List Byte :=
  covered c p ++ [k, stop0, stop1]

end Sys2Proof.Machine
end

