-- ==== Sys2Proof/Syntax.lean ====
section
/-! DEFINITION. The instructions: one constructor for each row of spec/opcode_table.json,
the ten operations of spec/30_encoding.md R57 and the ten packet kinds of R53 and
spec/44_packets.md R129. -/

namespace Sys2Proof

/-- An instruction. In a packet kind, `p` is the payload field and `k` the byte that stands in the
checksum field; that `k` is the right checksum is a check of WellFormed (R52). -/
inductive Instr where
  /-- CRC.CLR (R73). -/
  | crcClr
  /-- CRC.UPD b (R74). -/
  | crcUpd (b : Byte)
  /-- CRC.RD (R75). -/
  | crcRd
  /-- FRM.FEED b (R80). -/
  | frmFeed (b : Byte)
  /-- FRM.CLR (R87). -/
  | frmClr
  /-- FRM.CMD (R101). -/
  | frmCmd
  /-- FRM.XLEN (R102). -/
  | frmXlen
  /-- FRM.VALID (R103). -/
  | frmValid
  /-- FRM.PAY (R104). -/
  | frmPay
  /-- SER.ENC c, p (R111). -/
  | serEnc (c : Byte) (p : List Byte)
  /-- Set-baud-rate request, code 0x42, 2 payload bytes (R120). -/
  | pktSetbaudReq (p : List Byte) (k : Byte)
  /-- Set-baud-rate response, code 0x39, 2 payload bytes (R121). -/
  | pktSetbaudRsp (p : List Byte) (k : Byte)
  /-- Send-data request, code 0x54, no payload (R122). -/
  | pktSenddataReq (k : Byte)
  /-- Send-data response, code 0x38, no payload (R123). -/
  | pktSenddataRsp (k : Byte)
  /-- Get-version request, code 0x56, no payload (R124). -/
  | pktGetverReq (k : Byte)
  /-- Get-version response, code 0x40, 2 payload bytes (R125). -/
  | pktGetverRsp (p : List Byte) (k : Byte)
  /-- Set-data request, code 0x58, 14 payload bytes (R126). -/
  | pktSetdataReq (p : List Byte) (k : Byte)
  /-- Set-data response, code 0x33, no payload (R127). -/
  | pktSetdataRsp (k : Byte)
  /-- Receive-data, code 0x36, 14 payload bytes (R128). -/
  | pktRecvdata (p : List Byte) (k : Byte)
  /-- Any other code `c`, no payload (R129). -/
  | pktUnassigned (c : Byte) (k : Byte)
deriving DecidableEq, Repr

end Sys2Proof
end

