-- ==== Sys2Proof/WellFormed.lean ====
section
/-! DEFINITION. Which instructions are well formed: a payload the serializer can be given
(spec/43_serializer.md R112), and, for a packet kind, the payload length its command dictates, the
right checksum, and in the default row a code that is not assigned (spec/30_encoding.md R52 to R54,
spec/44_packets.md R129). -/

namespace Sys2Proof

open Machine

/-- Why an instruction is not well formed. -/
inductive IllFormed where
  /-- SER.ENC with more than `PAYMAX` payload bytes (R112). -/
  | payloadTooLong
  /-- A packet whose payload is not `EXT(command)` bytes long (R50). -/
  | payloadLength
  /-- A packet whose checksum field is not the CRC-8 of the bytes before it (R52). -/
  | checksum
  /-- The default row with one of the nine assigned codes (R129). -/
  | codeAssigned
deriving DecidableEq, Repr

/-- The command, payload and checksum field of a packet kind, none for an operation (R53, R129). -/
def Instr.packet? : Instr → Option (Byte × List Byte × Byte)
  | .crcClr => none
  | .crcUpd _ => none
  | .crcRd => none
  | .frmFeed _ => none
  | .frmClr => none
  | .frmCmd => none
  | .frmXlen => none
  | .frmValid => none
  | .frmPay => none
  | .serEnc _ _ => none
  | .pktSetbaudReq p k => some (codeSetbaudReq, p, k)
  | .pktSetbaudRsp p k => some (codeSetbaudRsp, p, k)
  | .pktSenddataReq k => some (codeSenddataReq, [], k)
  | .pktSenddataRsp k => some (codeSenddataRsp, [], k)
  | .pktGetverReq k => some (codeGetverReq, [], k)
  | .pktGetverRsp p k => some (codeGetverRsp, p, k)
  | .pktSetdataReq p k => some (codeSetdataReq, p, k)
  | .pktSetdataRsp k => some (codeSetdataRsp, [], k)
  | .pktRecvdata p k => some (codeRecvdata, p, k)
  | .pktUnassigned c k => some (c, [], k)

/-- The checks common to all packet kinds (R50, R52). -/
def checkPacket (c : Byte) (p : List Byte) (k : Byte) : Option IllFormed :=
  if p.length ≠ ext c then some .payloadLength
  else if k ≠ crc8 (covered c p) then some .checksum
  else none

/-- The first check that an instruction fails, if any. -/
def Instr.illFormed : Instr → Option IllFormed
  | .crcClr => none
  | .crcUpd _ => none
  | .crcRd => none
  | .frmFeed _ => none
  | .frmClr => none
  | .frmCmd => none
  | .frmXlen => none
  | .frmValid => none
  | .frmPay => none
  | .serEnc _ p => if params.payMax < p.length then some .payloadTooLong else none
  | .pktSetbaudReq p k => checkPacket codeSetbaudReq p k
  | .pktSetbaudRsp p k => checkPacket codeSetbaudRsp p k
  | .pktSenddataReq k => checkPacket codeSenddataReq [] k
  | .pktSenddataRsp k => checkPacket codeSenddataRsp [] k
  | .pktGetverReq k => checkPacket codeGetverReq [] k
  | .pktGetverRsp p k => checkPacket codeGetverRsp p k
  | .pktSetdataReq p k => checkPacket codeSetdataReq p k
  | .pktSetdataRsp k => checkPacket codeSetdataRsp [] k
  | .pktRecvdata p k => checkPacket codeRecvdata p k
  | .pktUnassigned c k => if assigned c then some .codeAssigned else checkPacket c [] k

/-- An instruction is well formed when it fails no check. -/
def Instr.wellFormed (i : Instr) : Bool := i.illFormed.isNone

end Sys2Proof
end

