-- ==== Sys2Proof/Decode.lean ====
section
/-! DEFINITION. The decoder, total on everything a host can present, and the encoder:
spec/30_encoding.md R50 to R54, R58 and R59, with the rows of spec/opcode_table.json. -/

namespace Sys2Proof

open Machine

/-- Why something presented is no instruction. Only a reserved `op` value is refused by a step; bytes that are
no packet are fed to the framer all the same (R56). -/
inductive DecodeError where
  /-- An `op` value that selects no operation (R59). -/
  | reservedOp (op : BitVec 4)
  /-- Bytes that do not begin with the header (R50). -/
  | packetHeader
  /-- Bytes whose number is not the `6 + EXT(command)` of their command (R51). -/
  | packetLength
  /-- Bytes that do not end with the stop marker (R50). -/
  | packetStop
deriving DecidableEq, Repr

/-- The field `op[11:8]` of an operation word (R58). -/
def opField (w : OpWord) : BitVec 4 := w.extractLsb' 8 4

/-- The field `data[7:0]` of an operation word (R58). -/
def dataField (w : OpWord) : Byte := w.extractLsb' 0 8

/-- The operation word with the given fields (R58). -/
def opWord (op : BitVec 4) (data : Byte) : OpWord := op ++ data

/-- The operation that a word selects, by the table of R58. The data field is ignored where the
table has x; the payload beside the word is an operand of SER.ENC alone (log entry 5). -/
def decodeOp (w : OpWord) (payload : List Byte) : Except DecodeError Instr :=
  match opField w with
  | 0x0#4 => .ok .crcClr
  | 0x1#4 => .ok (.crcUpd (dataField w))
  | 0x2#4 => .ok .crcRd
  | 0x4#4 => .ok (.frmFeed (dataField w))
  | 0x5#4 => .ok .frmClr
  | 0x6#4 => .ok .frmCmd
  | 0x7#4 => .ok .frmXlen
  | 0x8#4 => .ok .frmValid
  | 0x9#4 => .ok .frmPay
  | 0xC#4 => .ok (.serEnc (dataField w) payload)
  | op => .error (.reservedOp op)

/-- The packet kind of a command code: the nine specific rows, then the default row (R53, R129). -/
def packetInstr (c : Byte) (p : List Byte) (k : Byte) : Instr :=
  if c = codeSetbaudReq then .pktSetbaudReq p k
  else if c = codeSetbaudRsp then .pktSetbaudRsp p k
  else if c = codeSenddataReq then .pktSenddataReq k
  else if c = codeSenddataRsp then .pktSenddataRsp k
  else if c = codeGetverReq then .pktGetverReq k
  else if c = codeGetverRsp then .pktGetverRsp p k
  else if c = codeSetdataReq then .pktSetdataReq p k
  else if c = codeSetdataRsp then .pktSetdataRsp k
  else if c = codeRecvdata then .pktRecvdata p k
  else .pktUnassigned c k

/-- The packet kind whose fixed bits a byte string has: position 2 selects the row, then length and
stop marker are checked. The checksum is not part of the row's mask: it is read as the operand `k`
and checked by WellFormed (R52; log entry 4). -/
def decodePacket (bytes : List Byte) : Except DecodeError Instr :=
  match bytes with
  | h0 :: h1 :: c :: rest =>
    if h0 ≠ hdr0 ∨ h1 ≠ hdr1 then .error .packetHeader
    else
      let p := rest.take (ext c)
      match rest.drop (ext c) with
      | [k, s0, s1] =>
        if s0 ≠ stop0 ∨ s1 ≠ stop1 then .error .packetStop
        else .ok (packetInstr c p k)
      | _ => .error .packetLength
  | _ => .error .packetLength

/-- The instruction that something presented stands for. -/
def decode : Presented → Except DecodeError Instr
  | .op w payload => decodeOp w payload
  | .wire bytes => decodePacket bytes

/-- How an instruction is presented: the word of R58 with `data = 0x00` where it is ignored, or the
packet's bytes in the order of R50. -/
def encode : Instr → Presented
  | .crcClr => .op (opWord 0x0 0x00) []
  | .crcUpd b => .op (opWord 0x1 b) []
  | .crcRd => .op (opWord 0x2 0x00) []
  | .frmFeed b => .op (opWord 0x4 b) []
  | .frmClr => .op (opWord 0x5 0x00) []
  | .frmCmd => .op (opWord 0x6 0x00) []
  | .frmXlen => .op (opWord 0x7 0x00) []
  | .frmValid => .op (opWord 0x8 0x00) []
  | .frmPay => .op (opWord 0x9 0x00) []
  | .serEnc c p => .op (opWord 0xC c) p
  | .pktSetbaudReq p k => .wire (packetBytes codeSetbaudReq p k)
  | .pktSetbaudRsp p k => .wire (packetBytes codeSetbaudRsp p k)
  | .pktSenddataReq k => .wire (packetBytes codeSenddataReq [] k)
  | .pktSenddataRsp k => .wire (packetBytes codeSenddataRsp [] k)
  | .pktGetverReq k => .wire (packetBytes codeGetverReq [] k)
  | .pktGetverRsp p k => .wire (packetBytes codeGetverRsp p k)
  | .pktSetdataReq p k => .wire (packetBytes codeSetdataReq p k)
  | .pktSetdataRsp k => .wire (packetBytes codeSetdataRsp [] k)
  | .pktRecvdata p k => .wire (packetBytes codeRecvdata p k)
  | .pktUnassigned c k => .wire (packetBytes c [] k)

/-- The `n` low bytes of `w`, the most significant of them first: position 0 of a packet is the most
significant byte of the number that R52 writes it as. -/
def bytesOfNumber : Nat → Nat → List Byte
  | 0, _ => []
  | n + 1, w => BitVec.ofNat 8 (w / 256 ^ n) :: bytesOfNumber n w

/-- What a host presents for a table row's bits `w`: an operation word of 12 bits (16 in whole
bytes, the upper four 0) with no payload beside it, or the 6, 8 or 20 bytes of a packet (R52, R58). -/
def presentedOfTableWord (nbits w : Nat) : Option Presented :=
  if nbits = 12 ∨ nbits = 16 then
    if w < 4096 then some (.op (BitVec.ofNat 12 w) []) else none
  else if (nbits = 48 ∨ nbits = 64 ∨ nbits = 160) ∧ w < 2 ^ nbits then
    some (.wire (bytesOfNumber (nbits / 8) w))
  else none

/-- The instruction the decoder reads from bits numbered as spec/opcode_table.json numbers them. -/
def decodeTableWord (nbits w : Nat) : Option Instr :=
  match presentedOfTableWord nbits w with
  | some p => (decode p).toOption
  | none => none

end Sys2Proof
end

