-- ==== Sys2Proof/Machine/State.lean ====
section
/-! DEFINITION. The state of a system of codec blocks as plain data, the reasons a step can stop,
and the state after reset: spec/10_state.md R10 to R21, spec/70_reset_and_hazards.md R170. -/

namespace Sys2Proof.Machine

/-- The cells of an accumulation buffer: (index, byte) pairs with rising indexes, none of them equal
to what an unlisted cell reads as (`Memory.wf` in Machine/Ops.lean). -/
abbrev Memory := List Host.Cell

/-- One copy of the block: exactly the state of R10. -/
structure Codec where
  /-- The accumulation buffer, cells 0 to `BUFCAP - 1` (R11). -/
  buf : Memory
  /-- The length register, the bytes buffered toward the current packet (R12). -/
  len : Nat
  /-- The accumulator of the stand-alone CRC-8 generator (R14). -/
  crc : Byte
deriving DecidableEq, Repr

/-- A value an operation returns to the host (R57). -/
inductive Result where
  | byte (b : Byte)
  | length (n : Nat)
  | bit (v : Bool)
  | bytes (s : List Byte)
deriving DecidableEq, Repr

/-- A result, and the copy of the block that returned it. -/
structure Reply where
  copy : Fin ninst
  value : Result
deriving DecidableEq, Repr

/-- What a host can do to one copy of the block. -/
inductive Stimulus where
  /-- Present an operation, or bytes of the input stream (R57, R60). -/
  | present (p : Presented)
  /-- Apply the hardware reset, permitted at any time (R170). -/
  | reset
deriving DecidableEq, Repr

/-- One action of the host, naming the copy it addresses (R19). -/
structure Input where
  copy : Fin ninst
  what : Stimulus
deriving DecidableEq, Repr

/-- The whole system. `codecs` is all the state the spec gives it; the other three fields are the
model's own side of the interface (log entry 2). -/
structure State where
  /-- The independent copies of the block (R19). -/
  codecs : Vector Codec ninst
  /-- The copy that the operation in hand names (R19). -/
  sel : Fin ninst
  /-- The actions the host will take, in the order of R36. -/
  pending : List Input
  /-- The results returned so far, oldest first; they belong to the host (R18, R35). -/
  returned : List Reply
deriving DecidableEq, Repr

/-- The faults of the machine: none. No operation, on any operand and in any state, raises anything
or stops the block (R150). Safe: there is nothing a claim could lean on. -/
inductive Fault where
deriving DecidableEq, Repr

/-- Why the model gives something presented no meaning; nothing changes and nothing is returned. -/
inductive Refusal where
  /-- Raised by exec for an instruction without a meaning: none in this model. Safe. -/
  | notModelled (mnemonic : String)
  /-- Raised by step for a word whose `op` selects no operation: the spec says that it is refused
  (R59, D3, U13). Safe. -/
  | reservedOp (op : BitVec 4)
  /-- Raised by SER.ENC for more than `PAYMAX` payload bytes, which cannot be presented (R112). Safe. -/
  | payloadTooLong
deriving DecidableEq, Repr

/-- One copy of the block after reset: `len` = 0, `crc` = 0x00 (R20). The cells are unspecified in the
spec; here none is listed (log entry 1). -/
def Codec.fresh : Codec := { buf := [], len := 0, crc := 0x00 }

/-- The system after reset: every copy fresh (R162), nothing presented and nothing returned. -/
def State.reset : State :=
  { codecs := Vector.replicate ninst Codec.fresh, sel := 0, pending := [], returned := [] }

end Sys2Proof.Machine
end

