-- ==== Sys2Proof/Machine/Ops.lean ====
section
/-! DEFINITION. The named operations over the accumulation buffer, the registers and the host
interface: spec/10_state.md R11 and R12, spec/20_memory.md R34 to R36.
There is no exception to take and none to return from (spec/60_exceptions.md R150): what stands in
for them, the completion hold and the release of R155 and R156, is part of FRM.FEED and FRM.CLR. -/

namespace Sys2Proof.Machine

/-- The byte in cell `a`. -/
def Memory.read : Memory → Nat → Byte
  | [], _ => Config.unwrittenCell
  | (k, v) :: rest, a => if k = a then v else Memory.read rest a

/-- Store `v` in cell `a`, keeping the canonical form. -/
def Memory.write : Memory → Nat → Byte → Memory
  | [], a, v => if v = Config.unwrittenCell then [] else [(a, v)]
  | (k, x) :: rest, a, v =>
    if k < a then (k, x) :: Memory.write rest a v
    else
      let tail := if k = a then rest else (k, x) :: rest
      if v = Config.unwrittenCell then tail else (a, v) :: tail

/-- The canonical form: indexes strictly rising, no entry that equals an unlisted cell. -/
abbrev Memory.wf (m : Memory) : Prop :=
  m.Pairwise (fun x y => x.1 < y.1) ∧ ∀ c ∈ m, c.2 ≠ Config.unwrittenCell

/-- `buf[i..j)` (R7). -/
def Codec.slice (c : Codec) (i j : Nat) : List Byte := (List.range' i (j - i)).map c.buf.read

/-- `B`, the buffered bytes `buf[0..len)` (R8). -/
def Codec.bytes (c : Codec) : List Byte := c.slice 0 c.len

/-- `buf[len] <- b ; len <- len + 1`, the block's only store (R93). -/
def Codec.append (c : Codec) (b : Byte) : Codec :=
  { c with buf := c.buf.write c.len b, len := c.len + 1 }

/-- Empty the buffer: `len <- 0`; the cells keep their bytes (R17). -/
def Codec.empty (c : Codec) : Codec := { c with len := 0 }

/-- The hardware reset of one copy (R170): unlike `Codec.empty` it also writes `crc`. -/
def Codec.hardReset (c : Codec) : Codec := { c with len := 0, crc := 0x00 }

/-- The copy of the block that the operation in hand names (R19). -/
def State.codec (s : State) : Codec := s.codecs[s.sel]

/-- Write back the named copy; the others are not touched (R19). -/
def State.setCodec (s : State) (c : Codec) : State := { s with codecs := s.codecs.set s.sel c }

/-- Return a value to the host (R35). -/
def State.reply (s : State) (r : Result) : State :=
  { s with returned := s.returned ++ [{ copy := s.sel, value := r }] }

/-- Take the host's next action, if there is one: the addressed copy becomes the named one (R19, R36). -/
def State.take? (s : State) : Option (Stimulus × State) :=
  match s.pending with
  | [] => none
  | q :: rest => some (q.what, { s with pending := rest, sel := q.copy })

/-- Let the host's next action present `p` to the copy `s.sel`, before whatever else is pending. -/
def State.presentFirst (s : State) (p : Presented) : State :=
  { s with pending := { copy := s.sel, what := .present p } :: s.pending }

end Sys2Proof.Machine
end

