-- ==== Sys2Proof/Machine/CrcUnit.lean ====
section
/-! DEFINITION. The operations of the stand-alone CRC-8 generator: spec/40_crc8.md R73 to R75. -/

namespace Sys2Proof.Machine

/-- CRC.CLR: `crc <- 0x00` (R73). -/
def execCrcClr (s : State) : Host.Outcome State Fault Refusal :=
  .next (s.setCodec { s.codec with crc := crcInit })

/-- CRC.UPD b: `crc <- crc8_step(crc, b)` (R74). -/
def execCrcUpd (b : Byte) (s : State) : Host.Outcome State Fault Refusal :=
  .next (s.setCodec { s.codec with crc := crc8Step s.codec.crc b })

/-- CRC.RD: `return crc xor XOROUT` (R75). -/
def execCrcRd (s : State) : Host.Outcome State Fault Refusal :=
  .next (s.reply (.byte (s.codec.crc ^^^ xorOut)))

end Sys2Proof.Machine
end

