-- ==== Sys2Proof/Machine/Flags.lean ====
section
/-! DEFINITION. The derived values of the buffer, none of them stored (spec/10_state.md R15):
`CMD`, `XLEN`, `VALID`, `PAY` of spec/42_queries.md R101 to R104, and the phase of
spec/41_framer.md R88. -/

namespace Sys2Proof.Machine

/-- `CMD(B)`: the command byte, or the sentinel 0x00 while there is none (R101). -/
def Codec.cmd (c : Codec) : Byte := if 2 < c.len then c.buf.read 2 else 0x00

/-- `XLEN(B)`, the expected length (R102). -/
def Codec.xlen (c : Codec) : Nat := minLen + ext c.cmd

/-- `VALID(B)`: length, stop marker and checksum agree (R103; the checksum covers position 0 on, C1). -/
def Codec.valid (c : Codec) : Bool :=
  decide (c.len = c.xlen)
    && decide (c.buf.read (c.len - 2) = stop0)
    && decide (c.buf.read (c.len - 1) = stop1)
    && decide (crc8 (c.slice 0 (c.len - 3)) = c.buf.read (c.len - 3))

/-- `PAY(B)`, empty while the buffer is not valid (R104, D13). -/
def Codec.pay (c : Codec) : List Byte := if c.valid then c.slice 3 (c.len - 3) else []

/-- The phases of R88. -/
inductive Phase where
  | hunt0 | hunt1 | cmd | body | done | dead | over
deriving DecidableEq, Repr

/-- The phase of a buffer (R88). -/
def Codec.phase (P : Params) (c : Codec) : Phase :=
  if c.len = 0 then .hunt0
  else if c.len = 1 then .hunt1
  else if c.len = 2 then .cmd
  else if c.valid then .done
  else if c.len < c.xlen then .body
  else if c.len ≤ P.maxLen then .dead
  else .over

end Sys2Proof.Machine
end

