-- ==== Sys2Proof/Machine/Framer.lean ====
section
/-! DEFINITION. The packet framer: FRM.FEED and FRM.CLR (spec/41_framer.md R80 and R87) and the four
queries (spec/42_queries.md R101 to R104). -/

namespace Sys2Proof.Machine

/-- Step 1 of R80, the overrun discard (R82). -/
def Codec.discard (P : Params) (c : Codec) : Codec := if P.maxLen < c.len then c.empty else c

/-- Steps 2 to 4 of R80: the hold (R83), the header window (R84) and the append (R85). -/
def Codec.accept (P : Params) (b : Byte) (c : Codec) : Codec :=
  if c.valid then c
  else if c.len < 2 then
    if b = hdr c.len then c.append b
    else if P.hdrMismatchClears then c.empty
    else c
  else c.append b

/-- FRM.FEED b on one copy of the block: the four steps of R80 in their order (R81). -/
def Codec.feed (P : Params) (b : Byte) (c : Codec) : Codec := (c.discard P).accept P b

/-- FRM.FEEDS: the bytes of a sequence fed one at a time, in order (R60). -/
def Codec.feeds (P : Params) (bs : List Byte) (c : Codec) : Codec :=
  bs.foldl (fun c b => c.feed P b) c

/-- FRM.FEED b (R80); nothing is returned (D11). -/
def execFrmFeed (b : Byte) (s : State) : Host.Outcome State Fault Refusal :=
  .next (s.setCodec (s.codec.feed params b))

/-- FRM.CLR (R87). -/
def execFrmClr (s : State) : Host.Outcome State Fault Refusal :=
  .next (s.setCodec s.codec.empty)

/-- FRM.CMD (R101). -/
def execFrmCmd (s : State) : Host.Outcome State Fault Refusal :=
  .next (s.reply (.byte s.codec.cmd))

/-- FRM.XLEN (R102). -/
def execFrmXlen (s : State) : Host.Outcome State Fault Refusal :=
  .next (s.reply (.length s.codec.xlen))

/-- FRM.VALID (R103). -/
def execFrmValid (s : State) : Host.Outcome State Fault Refusal :=
  .next (s.reply (.bit s.codec.valid))

/-- FRM.PAY (R104). -/
def execFrmPay (s : State) : Host.Outcome State Fault Refusal :=
  .next (s.reply (.bytes s.codec.pay))

end Sys2Proof.Machine
end

