-- ==== Sys2Proof/Machine/Packets.lean ====
section
/-! DEFINITION. Bytes of the input stream, and the packet kinds at wire level (spec/44_packets.md R119 to
R129): what arrives is fed to the framer byte by byte, in order (spec/30_encoding.md R56 and R60,
spec/41_framer.md R89 and R90; log entry 3). -/

namespace Sys2Proof.Machine

/-- Bytes arrive at the named copy of the block, whether or not they are a packet (R56, R60, R157). -/
def State.receive (s : State) (bytes : List Byte) : State :=
  s.setCodec (s.codec.feeds params bytes)

/-- The bytes of a packet arrive at the named copy of the block. -/
def State.arrive (s : State) (c : Byte) (p : List Byte) (k : Byte) : State :=
  s.receive (packetBytes c p k)

/-- What is presented and is no instruction: a word whose `op` is reserved is refused (R59), and bytes that
are no packet are fed like any others, since nothing the framer is fed is refused (R56, R150, R157). -/
def State.uninstructed (s : State) : Presented → Host.Outcome State Fault Refusal
  | .op w _ => .refused (.reservedOp (opField w))
  | .wire bytes => .next (s.receive bytes)

/-- Set-baud-rate request (R120). -/
def execPktSetbaudReq (p : List Byte) (k : Byte) (s : State) : Host.Outcome State Fault Refusal :=
  .next (s.arrive codeSetbaudReq p k)

/-- Set-baud-rate response (R121). -/
def execPktSetbaudRsp (p : List Byte) (k : Byte) (s : State) : Host.Outcome State Fault Refusal :=
  .next (s.arrive codeSetbaudRsp p k)

/-- Send-data request (R122). -/
def execPktSenddataReq (k : Byte) (s : State) : Host.Outcome State Fault Refusal :=
  .next (s.arrive codeSenddataReq [] k)

/-- Send-data response (R123). -/
def execPktSenddataRsp (k : Byte) (s : State) : Host.Outcome State Fault Refusal :=
  .next (s.arrive codeSenddataRsp [] k)

/-- Get-version request (R124). -/
def execPktGetverReq (k : Byte) (s : State) : Host.Outcome State Fault Refusal :=
  .next (s.arrive codeGetverReq [] k)

/-- Get-version response (R125). -/
def execPktGetverRsp (p : List Byte) (k : Byte) (s : State) : Host.Outcome State Fault Refusal :=
  .next (s.arrive codeGetverRsp p k)

/-- Set-data request (R126). -/
def execPktSetdataReq (p : List Byte) (k : Byte) (s : State) : Host.Outcome State Fault Refusal :=
  .next (s.arrive codeSetdataReq p k)

/-- Set-data response (R127). -/
def execPktSetdataRsp (k : Byte) (s : State) : Host.Outcome State Fault Refusal :=
  .next (s.arrive codeSetdataRsp [] k)

/-- Receive-data (R128). -/
def execPktRecvdata (p : List Byte) (k : Byte) (s : State) : Host.Outcome State Fault Refusal :=
  .next (s.arrive codeRecvdata p k)

/-- Any other code (R129). -/
def execPktUnassigned (c : Byte) (k : Byte) (s : State) : Host.Outcome State Fault Refusal :=
  .next (s.arrive c [] k)

end Sys2Proof.Machine
end

