-- ==== Sys2Proof/Machine/Serializer.lean ====
section
/-! DEFINITION. The packet serializer: SER.ENC (spec/43_serializer.md R111 and R112). -/

namespace Sys2Proof.Machine

/-- SER.ENC c, p: `return ENC(c, p)` (R111). More than `PAYMAX` payload bytes cannot be presented and
are refused (R112). -/
def execSerEnc (c : Byte) (p : List Byte) (s : State) : Host.Outcome State Fault Refusal :=
  if p.length ≤ params.payMax then .next (s.reply (.bytes (enc c p))) else .refused .payloadTooLong

end Sys2Proof.Machine
end

