-- ==== Sys2Proof/Machine/Dispatch.lean ====
section
/-! DEFINITION. One arm for each row of spec/opcode_table.json. -/

namespace Sys2Proof.Machine

def exec (i : Instr) (s : State) : Host.Outcome State Fault Refusal :=
  match i with
  | .crcClr => Sys2Proof.Machine.execCrcClr s
  | .crcUpd b => Sys2Proof.Machine.execCrcUpd b s
  | .crcRd => Sys2Proof.Machine.execCrcRd s
  | .frmFeed b => Sys2Proof.Machine.execFrmFeed b s
  | .frmClr => Sys2Proof.Machine.execFrmClr s
  | .frmCmd => Sys2Proof.Machine.execFrmCmd s
  | .frmXlen => Sys2Proof.Machine.execFrmXlen s
  | .frmValid => Sys2Proof.Machine.execFrmValid s
  | .frmPay => Sys2Proof.Machine.execFrmPay s
  | .serEnc c p => Sys2Proof.Machine.execSerEnc c p s
  | .pktSetbaudReq p k => Sys2Proof.Machine.execPktSetbaudReq p k s
  | .pktSetbaudRsp p k => Sys2Proof.Machine.execPktSetbaudRsp p k s
  | .pktSenddataReq k => Sys2Proof.Machine.execPktSenddataReq k s
  | .pktSenddataRsp k => Sys2Proof.Machine.execPktSenddataRsp k s
  | .pktGetverReq k => Sys2Proof.Machine.execPktGetverReq k s
  | .pktGetverRsp p k => Sys2Proof.Machine.execPktGetverRsp p k s
  | .pktSetdataReq p k => Sys2Proof.Machine.execPktSetdataReq p k s
  | .pktSetdataRsp k => Sys2Proof.Machine.execPktSetdataRsp k s
  | .pktRecvdata p k => Sys2Proof.Machine.execPktRecvdata p k s
  | .pktUnassigned c k => Sys2Proof.Machine.execPktUnassigned c k s

end Sys2Proof.Machine
end

