-- ==== Sys2Proof/Machine/Step.lean ====
section
/-! DEFINITION. One step: the host's next action is performed completely, before the one after it
(spec/20_memory.md R34 and R36). With nothing presented the block is idle and keeps its state
(spec/60_exceptions.md R164). -/

namespace Sys2Proof.Machine

/-- One step of the system. -/
def step (s : State) : Host.Outcome State Fault Refusal :=
  match s.take? with
  | none => .next s
  | some (.reset, t) => .next (t.setCodec t.codec.hardReset)
  | some (.present p, t) =>
    match decode p with
    | .ok i => exec i t
    | .error _ => t.uninstructed p

/-- `n` steps, stopping where one has no next state (R36). -/
def run : Nat → State → Host.Outcome State Fault Refusal
  | 0, s => .next s
  | n + 1, s =>
    match step s with
    | .next t => run n t
    | .fault r => .fault r
    | .refused r => .refused r

/-- `s` with the instruction of these bits as the next thing presented, to the copy `s.sel` (log entries 7
and 10). Where the bits have no width that a table row has, no bytes are presented. -/
def State.withFetchWord (s : State) (nbits w : Nat) : State :=
  s.presentFirst ((presentedOfTableWord nbits w).getD (.wire []))

end Sys2Proof.Machine
end

