-- ==== Sys2Proof/Laws/PerInstr.lean ====
section
/-! SUPPORT. For each instruction, as syntax: how wide what it encodes to is. -/

namespace Sys2Proof.Laws

open Machine

/-- The number of bits of the table row of an instruction that is presented this way. -/
def rowBits : Presented → Nat
  | .op _ _ => 12
  | .wire bytes => 8 * bytes.length

/-- The width spec/opcode_table.json gives an instruction's row: 12 bits for an operation, 6, 8 or
20 bytes for a packet kind (R51). -/
def tableBits : Instr → Nat
  | .crcClr => 12
  | .crcUpd _ => 12
  | .crcRd => 12
  | .frmFeed _ => 12
  | .frmClr => 12
  | .frmCmd => 12
  | .frmXlen => 12
  | .frmValid => 12
  | .frmPay => 12
  | .serEnc _ _ => 12
  | .pktSetbaudReq _ _ => 64
  | .pktSetbaudRsp _ _ => 64
  | .pktSenddataReq _ => 48
  | .pktSenddataRsp _ => 48
  | .pktGetverReq _ => 48
  | .pktGetverRsp _ _ => 64
  | .pktSetdataReq _ _ => 160
  | .pktSetdataRsp _ => 48
  | .pktRecvdata _ _ => 160
  | .pktUnassigned _ _ => 48

/-- A packet that passes the common checks has the payload its command dictates. -/
theorem length_of_checkPacket {c : Byte} {p : List Byte} {k : Byte}
    (h : (checkPacket c p k).isNone = true) : p.length = ext c := by
  unfold checkPacket at h
  split at h
  · cases h
  · next hn => simpa using hn

/-- The bytes of a packet are as many as header, command, payload, checksum and stop marker. -/
theorem length_packetBytes (c : Byte) (p : List Byte) (k : Byte) :
    (packetBytes c p k).length = 6 + p.length := by
  simp [packetBytes, covered]; omega

namespace EncodedWidth

/-- A well-formed instruction encodes to as many bits as its table row has. -/
def Statement (i : Instr) : Prop := i.wellFormed = true → rowBits (encode i) = tableBits i

theorem crcClr : Statement .crcClr := fun _ => rfl
theorem crcUpd (b : Byte) : Statement (.crcUpd b) := fun _ => rfl
theorem crcRd : Statement .crcRd := fun _ => rfl
theorem frmFeed (b : Byte) : Statement (.frmFeed b) := fun _ => rfl
theorem frmClr : Statement .frmClr := fun _ => rfl
theorem frmCmd : Statement .frmCmd := fun _ => rfl
theorem frmXlen : Statement .frmXlen := fun _ => rfl
theorem frmValid : Statement .frmValid := fun _ => rfl
theorem frmPay : Statement .frmPay := fun _ => rfl
theorem serEnc (c : Byte) (p : List Byte) : Statement (.serEnc c p) := fun _ => rfl

theorem pktSetbaudReq (p : List Byte) (k : Byte) : Statement (.pktSetbaudReq p k) := fun h => by
  simp only [encode, rowBits, length_packetBytes, length_of_checkPacket h]; rfl

theorem pktSetbaudRsp (p : List Byte) (k : Byte) : Statement (.pktSetbaudRsp p k) := fun h => by
  simp only [encode, rowBits, length_packetBytes, length_of_checkPacket h]; rfl

theorem pktSenddataReq (k : Byte) : Statement (.pktSenddataReq k) := fun _ => rfl
theorem pktSenddataRsp (k : Byte) : Statement (.pktSenddataRsp k) := fun _ => rfl
theorem pktGetverReq (k : Byte) : Statement (.pktGetverReq k) := fun _ => rfl

theorem pktGetverRsp (p : List Byte) (k : Byte) : Statement (.pktGetverRsp p k) := fun h => by
  simp only [encode, rowBits, length_packetBytes, length_of_checkPacket h]; rfl

theorem pktSetdataReq (p : List Byte) (k : Byte) : Statement (.pktSetdataReq p k) := fun h => by
  simp only [encode, rowBits, length_packetBytes, length_of_checkPacket h]; rfl

theorem pktSetdataRsp (k : Byte) : Statement (.pktSetdataRsp k) := fun _ => rfl

theorem pktRecvdata (p : List Byte) (k : Byte) : Statement (.pktRecvdata p k) := fun h => by
  simp only [encode, rowBits, length_packetBytes, length_of_checkPacket h]; rfl

theorem pktUnassigned (c : Byte) (k : Byte) : Statement (.pktUnassigned c k) := fun _ => rfl

end EncodedWidth

end Sys2Proof.Laws
end

