-- ==== Sys2Proof/Machine/Pseudo.lean ====
section
/-! DEFINITION. Operations performed one after another (spec/20_memory.md R36), and the four
pseudo-operations of spec/30_encoding.md R60 as the operations they abbreviate. -/

namespace Sys2Proof.Machine

/-- The operations of a list, in order, on the copy `s.sel`: the left fold of R36. It stops where one of
them has no next state. -/
def execAll : List Instr → State → Host.Outcome State Fault Refusal
  | [], s => .next s
  | i :: rest, s =>
    match exec i s with
    | .next t => execAll rest t
    | .fault r => .fault r
    | .refused r => .refused r

/-- `FRM.FEEDS` (R60). -/
def feedsOps (bs : List Byte) : List Instr := bs.map .frmFeed

/-- `CRC.OF` (R60). -/
def crcOfOps (bs : List Byte) : List Instr := .crcClr :: bs.map .crcUpd ++ [.crcRd]

/-- `LOOP c, p` (R60): SER.ENC, then the sequence it returns is fed. -/
def loopOps (c : Byte) (p : List Byte) : List Instr := .serEnc c p :: feedsOps (enc c p)

/-- `TAKE` (R60) in state `s`: FRM.CLR follows the three queries only if FRM.VALID returned 1. -/
def takeOps (s : State) : List Instr :=
  [.frmValid, .frmCmd, .frmPay] ++ if s.codec.valid then [.frmClr] else []

/-- The actions of a host that presents the operations of a list to one copy of the block. -/
def presentAll (k : Fin ninst) (is : List Instr) : List Input :=
  is.map fun i => { copy := k, what := .present (encode i) }

end Sys2Proof.Machine
end

