-- ==== Sys2Proof/Machine/Bridge.lean ====
section
/-! DEFINITION. The host's side, outside the block (spec/45_host_software.md): the payload builders and
their inverse (R136 to R138), and what the Bridge does with the block (R139, R140). -/

namespace Sys2Proof.Machine

/-- `DATA_PAD` (R136, D22). -/
abbrev dataPad : Byte := 0x00

/-- What the CAN side exchanges: identifier format, identifier, payload length and payload (R142). -/
structure CanFrame where
  extended : Bool
  id : BitVec 32
  length : Nat
  data : List Byte
deriving DecidableEq, Repr

/-- A frame the data packet builder has a meaning for: 0 to 8 data bytes, all of them given (R136, U15;
log entry 8). -/
abbrev CanFrame.legal (f : CanFrame) : Prop := f.length ≤ 8 ∧ f.length ≤ f.data.length

/-- The byte that packs the extended flag and the length (R136). -/
def flagByte (f : CanFrame) : Byte :=
  (if f.extended then 0x80 else 0x00) ||| (BitVec.ofNat 8 f.length &&& 0x7F)

/-- The 14 payload bytes of a data packet (R136). -/
def dataPayload (f : CanFrame) : Option (List Byte) :=
  if f.legal then
    some ([0x00, flagByte f, f.id.extractLsb' 0 8, f.id.extractLsb' 8 8, f.id.extractLsb' 16 8,
      f.id.extractLsb' 24 8] ++ f.data.take f.length ++ List.replicate (8 - f.length) dataPad)
  else none

/-- The data packet builder (R136). -/
def dataPacket (f : CanFrame) : Option (List Byte) := (dataPayload f).map (enc codeSetdataReq)

/-- The inverse accessors on the payload of a data packet; a length field above 8 has no meaning
(R138, U15). -/
def readData : List Byte → Option CanFrame
  | _ :: fl :: i0 :: i1 :: i2 :: i3 :: d =>
    let n := (fl &&& 0x7F).toNat
    if n ≤ 8 then
      some { extended := fl.msb, length := n, data := d.take n,
             id := i0.setWidth 32 + 256 * i1.setWidth 32 + 65536 * i2.setWidth 32
                     + 16777216 * i3.setWidth 32 }
    else none
  | _ => none

/-- The recognised baud rates in bits per second (R137). -/
def recognise (rate : Nat) : Option BaudRate :=
  if rate = 50000 then some .r50000
  else if rate = 100000 then some .r100000
  else if rate = 250000 then some .r250000
  else if rate = 500000 then some .r500000
  else if rate = 1000000 then some .r1000000
  else none

/-- The baud-rate packet builder; an unrecognised rate is rejected and nothing is built (R137, D22). -/
def baudPacket (rate : Nat) : Option (List Byte) :=
  (recognise rate).map fun r =>
    enc codeSetbaudReq [(Config.baudPay (Config.baudCode r)).1, (Config.baudPay (Config.baudCode r)).2]

/-- What the Bridge hands to its sinks after one byte from the serial link. -/
structure BridgeOut where
  toCan : Option CanFrame
  toSerial : Option (List Byte)
deriving DecidableEq, Repr

/-- The Bridge's serial direction, one byte received (R139): the block after it, and what goes to the
sinks. None where the accessors have no meaning for the received data packet (R138). -/
def bridgeByte (b : Byte) (c : Codec) : Option (Codec × BridgeOut) :=
  let d := c.feed params b
  if d.valid then
    if d.cmd = codeRecvdata then
      (readData d.pay).map fun f => (d.empty, { toCan := some f, toSerial := none })
    else if d.cmd = codeSetdataRsp then
      some (d.empty, { toCan := none, toSerial := some (enc codeSenddataReq []) })
    else some (d.empty, { toCan := none, toSerial := none })
  else some (d, { toCan := none, toSerial := none })

/-- The Bridge's serial direction over a stretch of the stream: the block after it, the frames handed to
the CAN sink and the packets written to the serial sink, in order (R139). -/
def bridgeRun : List Byte → Codec → Option (Codec × List CanFrame × List (List Byte))
  | [], c => some (c, [], [])
  | b :: rest, c =>
    match bridgeByte b c with
    | none => none
    | some (d, out) =>
      (bridgeRun rest d).map fun (e, can, serial) => (e, out.toCan.toList ++ can, out.toSerial.toList ++ serial)

/-- The operations the Bridge presents for one byte received (R139). -/
def bridgeOps (b : Byte) (c : Codec) : List Instr :=
  let d := c.feed params b
  [.frmFeed b, .frmValid] ++
    if d.valid then
      [.frmCmd] ++ (if d.cmd = codeRecvdata then [.frmPay]
        else if d.cmd = codeSetdataRsp then [.serEnc codeSenddataReq []]
        else []) ++ [.frmClr]
    else []

/-- The operations the Bridge presents for one CAN frame: SER.ENC alone (R140). -/
def bridgeFrameOps (f : CanFrame) : Option (List Instr) :=
  (dataPayload f).map fun p => [.serEnc codeSetdataReq p]

/-! ## The whole Bridge: each direction owns one copy of the block (R19, R139, R140) -/

/-- The copy that the serial-to-CAN direction owns (R139). -/
abbrev serialToCan : Fin ninst := 0

/-- The copy that the CAN-to-serial direction owns (R140). -/
abbrev canToSerial : Fin ninst := 1

/-- The Bridge: its copies of the block, and what it has handed to its sinks, oldest first. -/
structure Bridge where
  codecs : Vector Codec ninst
  canSink : List CanFrame
  serialSink : List (List Byte)
deriving DecidableEq, Repr

/-- What a transport delivers to the Bridge (R142). -/
inductive BridgeEvent where
  /-- One byte from the serial link (R139). -/
  | serialByte (b : Byte)
  /-- One frame from the CAN bus (R140). -/
  | canFrame (f : CanFrame)
deriving DecidableEq, Repr

/-- The Bridge handles one event: a serial byte is fed to its direction's copy and a completed packet acted
on (R139); a CAN frame is built into a data packet whose bytes go to the serial sink, and no framer is fed
(R140). None where the builder or the accessors have no meaning (R136, R138; log entry 8). -/
def Bridge.handle (g : Bridge) : BridgeEvent → Option Bridge
  | .serialByte b =>
    (bridgeByte b g.codecs[serialToCan]).map fun (c, out) =>
      { codecs := g.codecs.set serialToCan c,
        canSink := g.canSink ++ out.toCan.toList,
        serialSink := g.serialSink ++ out.toSerial.toList }
  | .canFrame f => (dataPacket f).map fun bytes => { g with serialSink := g.serialSink ++ [bytes] }

/-- The Bridge handles events one after another. -/
def Bridge.handleAll : List BridgeEvent → Bridge → Option Bridge
  | [], g => some g
  | e :: rest, g => (g.handle e).bind (Bridge.handleAll rest)

/-- The actions by which the Bridge has the block do its part of an event, each direction on its own copy. -/
def Bridge.actions (g : Bridge) : BridgeEvent → Option (List Input)
  | .serialByte b => some (presentAll serialToCan (bridgeOps b g.codecs[serialToCan]))
  | .canFrame f => (bridgeFrameOps f).map (presentAll canToSerial)

end Sys2Proof.Machine
end

