-- ==== Sys2Proof/Safety.lean ====
section
/-! DEFINITION. What counts as a good state, as a reachable one and as a run that loses nothing, and the
relations between states in which claims are stated. -/

namespace Sys2Proof.Machine

/-- The invariants of one copy of the block (spec/10_state.md R13), the canonical form of its buffer,
and the bound of the buffer index space (R21). -/
structure Codec.Ok (P : Params) (c : Codec) : Prop where
  canonical : c.buf.wf
  inside : ∀ x ∈ c.buf, x.1 < P.bufCap
  len_le : c.len ≤ P.bufCap
  header0 : 1 ≤ c.len → c.buf.read 0 = hdr0
  header1 : 2 ≤ c.len → c.buf.read 1 = hdr1

/-- Every copy of the block is good. -/
def State.Inv (s : State) : Prop := ∀ k : Fin ninst, s.codecs[k].Ok params

/-- The states that some run reaches: from reset, whatever the host presents (R36). -/
inductive Reachable : State → Prop where
  | start (inputs : List Input) : Reachable { State.reset with pending := inputs }
  | step (s t : State) : Reachable s → Machine.step s = .next t → Reachable t

/-- Everything but the named copy of the block and the results is as it was. -/
structure State.OthersKept (s t : State) : Prop where
  sel : t.sel = s.sel
  pending : t.pending = s.pending
  codecs : ∀ k : Fin ninst, k ≠ s.sel → t.codecs[k] = s.codecs[k]

/-- Two copies of the block that no operation can tell apart: the cells at `len` and above may differ
(R17, D24). -/
structure Codec.Alike (c d : Codec) : Prop where
  len : c.len = d.len
  crc : c.crc = d.crc
  cells : ∀ a, a < c.len → c.buf.read a = d.buf.read a

/-- Two states that differ at most in cells no operation can observe. -/
structure State.Alike (s t : State) : Prop where
  sel : s.sel = t.sel
  pending : s.pending = t.pending
  returned : s.returned = t.returned
  codecs : ∀ k : Fin ninst, s.codecs[k].Alike t.codecs[k]

/-- Two outcomes that the host cannot tell apart. -/
def OutcomeAlike : Host.Outcome State Fault Refusal → Host.Outcome State Fault Refusal → Prop
  | .next s, .next t => s.Alike t
  | .refused q, .refused r => q = r
  | _, _ => False

/-- The condition that the table of R88 gives for each phase. -/
def PhaseHolds (P : Params) (c : Codec) : Phase → Prop
  | .hunt0 => c.len = 0
  | .hunt1 => c.len = 1
  | .cmd => c.len = 2
  | .body => 3 ≤ c.len ∧ c.len < c.xlen
  | .done => c.valid = true
  | .dead => c.xlen ≤ c.len ∧ c.len ≤ P.maxLen ∧ c.valid = false
  | .over => c.len = P.maxLen + 1

/-- `t` is `s` after the named copy has received one whole good packet (R89, R155): it holds exactly that
packet, the cells past it are as they were, and nothing else has changed. -/
structure Received (c : Byte) (p : List Byte) (s t : State) : Prop where
  done : t.codec.phase params = .done
  bytes : t.codec.bytes = enc c p
  cmd : t.codec.cmd = c
  xlen : t.codec.xlen = 6 + p.length
  pay : t.codec.pay = p
  crc : t.codec.crc = s.codec.crc
  cells : ∀ a, 6 + p.length ≤ a → t.codec.buf.read a = s.codec.buf.read a
  returned : t.returned = s.returned
  others : s.OthersKept t

/-- A step that gives what was presented a meaning. -/
def StepsOn (s : State) : Prop := ∃ t, step s = .next t

/-- The host's duty before FRM.FEED: the held packet has been cleared (R175). -/
def FeedLosesNothing (s : State) : Prop := s.codec.valid = false

/-- The host's duty before SER.ENC: the payload has the length the command dictates (R179). -/
def PayloadFits (c : Byte) (p : List Byte) : Prop := p.length = ext c

end Sys2Proof.Machine
end

