-- ==== Sys2Proof/Certificates/Slice0/Obligations.lean ====
section
/-! DEFINITION. The statements for the provers, each with the rules of the spec it formalises. -/

open Sys2Proof Sys2Proof.Machine

/-! ## Encoding and stepping -/

/-- Decoding what a well-formed instruction encodes to gives it back (R52, R53, R58). -/
def Obligations.DecodeInvertsEncode : Prop :=
  ∀ i : Instr, i.wellFormed = true → decode (encode i) = .ok i

/-- Encoding what was decoded gives back the packet bit for bit; the operation word bit for bit for CRC.UPD,
FRM.FEED and SER.ENC, with the payload of SER.ENC; and for the seven operations without an operand the word
but for the data field that they ignore (R52, R58; that a payload beside another word than SER.ENC is
dropped is the model's choice, log entry 5). -/
def Obligations.EncodeInvertsDecode : Prop :=
  ∀ (q : Presented) (i : Instr), decode q = .ok i →
    decode (encode i) = .ok i ∧
    (∀ bs, q = .wire bs → encode i = .wire bs) ∧
    (∀ w p, q = .op w p →
      (∃ b, i = .crcUpd b ∧ encode i = .op w []) ∨ (∃ b, i = .frmFeed b ∧ encode i = .op w []) ∨
      (∃ c, i = .serEnc c p ∧ encode i = .op w p) ∨
      (i ∈ [.crcClr, .crcRd, .frmClr, .frmCmd, .frmXlen, .frmValid, .frmPay] ∧
        encode i = .op (opWord (opField w) 0x00) []))

/-- The byte strings that are packets of the table are exactly what the serializer emits for a payload
of the length its command dictates (R52, R129). -/
def Obligations.PacketsAreSerializerOutputs : Prop :=
  ∀ bs : List Byte,
    (∃ i, decode (.wire bs) = .ok i ∧ i.wellFormed = true) ↔
      ∃ c p, p.length = ext c ∧ bs = enc c p

/-- Words and packets written out from the encodings of R53 and R58 decode to what they stand for. -/
def Obligations.WrittenWordsDecode : Prop :=
  decode (.op 0b000000000000#12 []) = .ok .crcClr ∧
  decode (.op 0b000100110001#12 []) = .ok (.crcUpd 0x31) ∧
  decode (.op 0b010000100100#12 []) = .ok (.frmFeed 0x24) ∧
  decode (.op 0b010100000000#12 []) = .ok .frmClr ∧
  decode (.op 0b100000000000#12 []) = .ok .frmValid ∧
  decode (.op 0b110001010100#12 [0x01]) = .ok (.serEnc 0x54 [0x01]) ∧
  decode (.wire [0b00100100, 0b01000011, 0b00111001, 0b00001110, 0b00000000, 0b01000111,
    0b00001010, 0b00001101]) = .ok (.pktSetbaudRsp [0x0E, 0x00] 0x47) ∧
  decode (.wire [0b00100100, 0b01000011, 0b01010100, 0b00100111, 0b00001010, 0b00001101]) =
    .ok (.pktSenddataReq 0x27)

/-- The reserved `op` values select no operation: the decoder refuses them, whatever the rest of the
word, and a step that meets one is refused (R59); every other `op` value selects an operation (R58). That a
payload beside another word than SER.ENC changes nothing is the model's choice (log entry 5). -/
def Obligations.ReservedOperationsRefused : Prop :=
  ∀ (w : OpWord) (p : List Byte),
    (opField w ∈ [0x3, 0xA, 0xB, 0xD, 0xE, 0xF] →
      decode (.op w p) = .error (.reservedOp (opField w)) ∧
      ∀ s : State, step (s.presentFirst (.op w p)) = .refused (.reservedOp (opField w))) ∧
    (opField w ∉ [0x3, 0xA, 0xB, 0xD, 0xE, 0xF] → ∃ i, decode (.op w p) = .ok i) ∧
    (opField w ≠ 0xC → ∀ q : List Byte, decode (.op w q) = decode (.op w p))

/-- A step performs the decoded instruction on the copy that the host's action names, with that action
taken out of the queue and nothing else changed (R19, R34, R36); with nothing presented the block is idle and
keeps its state (R164). The queue of actions is the model's own (log entry 2). -/
def Obligations.StepRunsDecodedInstruction : Prop :=
  (∀ (s : State) (k : Fin ninst) (q : Presented) (rest : List Input) (i : Instr),
    s.pending = { copy := k, what := .present q } :: rest → decode q = .ok i →
      step s = exec i { s with pending := rest, sel := k }) ∧
  ∀ s : State, s.pending = [] → step s = .next s

/-- The bits of a table row, numbered as the table numbers them (R52, R58; log entry 7), presented next, are
what the step runs. The block fetches nothing (R12): that what is presented next stands for the fetch is the
model's choice (log entry 10). -/
def Obligations.FetchedWordRuns : Prop :=
  ∀ (s : State) (nbits w : Nat) (i : Instr),
    decodeTableWord nbits w = some i → step (s.withFetchWord nbits w) = exec i s

/-- No operation, on any operand and in any state, stops the block: every well-formed instruction
completes, no step faults, and a step is refused exactly for the two inputs that the interface excludes, a
reserved operation code and a payload longer than `PAYMAX` (R59, R112, R150; that a packet kind is an
instruction is the model's choice, log entry 3, and the form of a refusal is inferred, log entry 12). -/
def Obligations.NothingStopsTheBlock : Prop :=
  (∀ (i : Instr) (s : State), i.wellFormed = true → ∃ t, exec i s = .next t) ∧
  (∀ (s : State) (f : Fault), step s ≠ .fault f) ∧
  (∀ (s : State) (r : Refusal), step s = .refused r ↔
    ∃ k w p rest, s.pending = { copy := k, what := .present (.op w p) } :: rest ∧
      ((opField w ∈ [0x3, 0xA, 0xB, 0xD, 0xE, 0xF] ∧ r = .reservedOp (opField w)) ∨
       (opField w = 0xC ∧ 33 < p.length ∧ r = .payloadTooLong)))

/-- Presenting the operations of a list one after another to one copy, a step each, is the left fold of
the operation rules over the list (R36). -/
def Obligations.RunFoldsOperations : Prop :=
  ∀ (is : List Instr) (s : State), (∀ i ∈ is, i.wellFormed = true) → s.pending = [] →
    run is.length { s with pending := presentAll s.sel is } = execAll is s

/-! ## Reset -/

/-- After reset every copy has an empty buffer and a zero accumulator, and each of the five read results
is the one R20 gives. -/
def Obligations.ResetValues : Prop :=
  ∀ k : Fin ninst, let c := State.reset.codecs[k]
    c.len = 0 ∧ c.crc = 0x00 ∧ c.bytes = [] ∧ c.cmd = 0x00 ∧ c.xlen = 6 ∧ c.valid = false ∧ c.pay = []

/-- The hardware reset of a copy sets `len` and `crc` to zero and does nothing else; it can be applied in
every state (R170). -/
def Obligations.HardwareReset : Prop :=
  ∀ (s : State) (k : Fin ninst) (rest : List Input),
    s.pending = { copy := k, what := .reset } :: rest →
      ∃ t, step s = .next t ∧ t.codecs[k] = { s.codecs[k] with len := 0, crc := 0x00 } ∧
        (∀ j, j ≠ k → t.codecs[j] = s.codecs[j]) ∧ t.pending = rest ∧ t.returned = s.returned ∧
        t.codecs[k].phase params = .hunt0 ∧ t.codecs[k].valid = false

/-! ## The CRC-8 generator -/

/-- CRC.CLR (R73). -/
def Obligations.CrcClrClears : Prop :=
  (∀ d, decode (.op (opWord 0x0 d) []) = .ok .crcClr) ∧
  ∀ s : State, ∃ t, exec .crcClr s = .next t ∧ t.codec = { s.codec with crc := 0x00 } ∧
    t.returned = s.returned ∧ s.OthersKept t

/-- CRC.UPD b (R74). -/
def Obligations.CrcUpdSteps : Prop :=
  (∀ b, decode (.op (opWord 0x1 b) []) = .ok (.crcUpd b)) ∧ crc8Step 0xFC 0x43 = 0x34 ∧
  ∀ (b : Byte) (s : State), ∃ t, exec (.crcUpd b) s = .next t ∧
    t.codec = { s.codec with crc := crc8Step s.codec.crc b } ∧
    t.returned = s.returned ∧ s.OthersKept t

/-- CRC.RD returns the accumulator and changes nothing else; after CRC.CLR and an update with each byte
of a sequence it returns the CRC-8 of the sequence (R75). -/
def Obligations.CrcRdReturns : Prop :=
  (∀ d, decode (.op (opWord 0x2 d) []) = .ok .crcRd) ∧
  (∀ s : State, ∃ t, exec .crcRd s = .next t ∧ t.codecs = s.codecs ∧
    t.returned = s.returned ++ [{ copy := s.sel, value := .byte s.codec.crc }] ∧ s.OthersKept t) ∧
  ∀ (bs : List Byte) (s : State), ∃ t, execAll (crcOfOps bs) s = .next t ∧
    t.codec = { s.codec with crc := crc8 bs } ∧
    t.returned = s.returned ++ [{ copy := s.sel, value := .byte (crc8 bs) }] ∧ s.OthersKept t

/-- The table form of one CRC step, with the 256 entries of the spec, which are a bijection (R72). -/
def Obligations.CrcTableForm : Prop :=
  (∀ c b : Byte, crcTable[(c ^^^ b).toNat]? = some (crc8Step c b)) ∧
  (∀ i : Byte, crcTable[i.toNat]? = some (crc8Step 0x00 i)) ∧
  crcTable.length = 256 ∧ crcTable.Nodup

/-- The arithmetic laws of the CRC: incremental, linear, residue, leading zeros (R76). -/
def Obligations.CrcLaws : Prop :=
  (∀ s t : List Byte, crc8 (s ++ t) = t.foldl crc8Step (crc8 s)) ∧
  crc8 [0x24, 0x43] = 0x34 ∧
  (∀ t : List Byte, crc8 ([0x24, 0x43] ++ t) = t.foldl crc8Step 0x34) ∧
  (∀ s t : List Byte, s.length = t.length →
    crc8 (List.zipWith (· ^^^ ·) s t) = crc8 s ^^^ crc8 t) ∧
  (∀ n : Nat, crc8 (List.replicate n 0x00) = 0x00) ∧
  (∀ (s : List Byte) (x : Byte), crc8 (s ++ [x]) = 0x00 ↔ x = crc8 s) ∧
  (∀ s : List Byte, crc8 ([0x00] ++ s) = crc8 s)

/-- Changing exactly one byte of a sequence always changes its CRC-8; and a buffer that differs from a valid
one in exactly one of its bytes, at the same length, is not valid, wherever that byte stands (R77). -/
def Obligations.OneByteErrorDetected : Prop :=
  (∀ (u v : List Byte) (x y : Byte), x ≠ y → crc8 (u ++ [x] ++ v) ≠ crc8 (u ++ [y] ++ v)) ∧
  ∀ (c d : Codec) (a : Nat), c.valid = true → d.len = c.len → a < c.len →
    d.buf.read a ≠ c.buf.read a → (∀ x, x < c.len → x ≠ a → d.buf.read x = c.buf.read x) →
    d.valid = false

/-- Of all instructions only CRC.CLR and CRC.UPD write the stand-alone accumulator and only CRC.RD returns
it; no framer or serializer operation reads or writes it: with another value in it they do the same (R14). -/
def Obligations.AccumulatorApart : Prop :=
  ∀ (i : Instr) (s t : State), exec i s = .next t →
    (i = .crcClr ∧ t.codec.crc = 0x00) ∨
    (∃ b, i = .crcUpd b ∧ t.codec.crc = crc8Step s.codec.crc b) ∨
    (i = .crcRd ∧ t = s.reply (.byte s.codec.crc)) ∨
    (t.codec.crc = s.codec.crc ∧ ∀ x : Byte,
      exec i (s.setCodec { s.codec with crc := x }) = .next (t.setCodec { t.codec with crc := x }))

/-! ## The framer -/

/-- FRM.FEED b: the four steps of R80, in their order. -/
def Obligations.FeedFollowsFourSteps : Prop :=
  (∀ b, decode (.op (opWord 0x4 b) []) = .ok (.frmFeed b)) ∧
  ∀ (b : Byte) (s : State), ∃ t, exec (.frmFeed b) s = .next t ∧
    t.returned = s.returned ∧ s.OthersKept t ∧
    let c : Codec := if 39 < s.codec.len then { s.codec with len := 0 } else s.codec
    let stored : Codec := { c with buf := c.buf.write c.len b, len := c.len + 1 }
    t.codec =
      if c.valid then c
      else if c.len = 0 then if b = 0x24 then stored else c
      else if c.len = 1 then if b = 0x43 then stored else { c with len := 0 }
      else stored

/-- FRM.FEED stores at most one byte, at the index `len` (after an overrun discard, 0), the input byte
unchanged; every other cell reads as before, and every cell where nothing is stored (R93). -/
def Obligations.FeedStoresOneCell : Prop :=
  ∀ (b : Byte) (s t : State), s.codec.buf.wf → exec (.frmFeed b) s = .next t →
    let c := s.codec.discard params
    (∀ a, a ≠ c.len → t.codec.buf.read a = s.codec.buf.read a) ∧
    (c.valid = true ∨ (c.len < 2 ∧ b ≠ hdr c.len) →
      t.codec.len ≤ c.len ∧ ∀ a, t.codec.buf.read a = s.codec.buf.read a) ∧
    (c.valid = false ∧ (c.len < 2 → b = hdr c.len) →
      t.codec.len = c.len + 1 ∧ t.codec.buf.read c.len = b) ∧
    t.codec.crc = s.codec.crc

/-- The overrun discard: strictly above 39 bytes the buffer is emptied and the byte is then examined as
a first header byte; at exactly 39 it is appended (R82). -/
def Obligations.OverrunDiscards : Prop :=
  ∀ (b : Byte) (s : State), s.codec.buf.wf →
    (39 < s.codec.len → ∃ t, exec (.frmFeed b) s = .next t ∧
      t.codec.len = (if b = 0x24 then 1 else 0) ∧ (b = 0x24 → t.codec.buf.read 0 = 0x24) ∧
      ∀ a, 1 ≤ a → t.codec.buf.read a = s.codec.buf.read a) ∧
    (s.codec.len = 39 → ∃ t, exec (.frmFeed b) s = .next t ∧ t.codec.len = 40 ∧
      t.codec.buf.read 39 = b)

/-- A completed packet is held: whatever the byte, FRM.FEED changes nothing, and no operation or packet
but FRM.CLR changes the buffered bytes or ends the hold (R83). -/
def Obligations.CompletedPacketHeld : Prop :=
  ∀ s : State, s.codec.valid = true →
    (∀ b, exec (.frmFeed b) s = .next s) ∧
    (∀ (i : Instr) (t : State), i ≠ .frmClr → exec i s = .next t →
      t.codec.buf = s.codec.buf ∧ t.codec.len = s.codec.len ∧ t.codec.valid = true) ∧
    (∃ t, exec .frmClr s = .next t ∧ t.codec.valid = false)

/-- The header window, for every legal `MAXLEN` and both readings of a rejection; under the default one a
stream `24 24 43` does not synchronise (R84). -/
def Obligations.HeaderWindow : Prop :=
  (∀ (P : Params) (b : Byte) (c : Codec), P.Legal →
    (c.len = 0 → c.feed P b = if b = 0x24 then c.append b else c) ∧
    (c.len = 1 → c.feed P b =
      if b = 0x43 then c.append b else if P.hdrMismatchClears then { c with len := 0 } else c) ∧
    (c.len = 0 → (c.feeds P [0x24, 0x24, 0x43]).len = if P.hdrMismatchClears then 0 else 2)) ∧
  params.hdrMismatchClears = true ∧
  ∀ (b : Byte) (s : State), exec (.frmFeed b) s = .next (s.setCodec (s.codec.feed params b))

/-- The append: between 2 and 39 buffered bytes and not valid, the byte is stored whatever its value
(R85). -/
def Obligations.AppendStoresByte : Prop :=
  ∀ (b : Byte) (s : State), s.codec.buf.wf → 2 ≤ s.codec.len → s.codec.len ≤ 39 →
    s.codec.valid = false →
    ∃ t, exec (.frmFeed b) s = .next t ∧ t.codec.len = s.codec.len + 1 ∧
      t.codec.bytes = s.codec.bytes ++ [b] ∧ t.codec.crc = s.codec.crc ∧
      (∀ a, a ≠ s.codec.len → t.codec.buf.read a = s.codec.buf.read a) ∧
      (s.codec.len = 2 → t.codec.cmd = b) ∧ t.returned = s.returned ∧ s.OthersKept t

/-- A packet that reached its expected length without validating never validates: every byte is appended
until the buffer holds `MAXLEN + 1`, and the byte after that meets an emptied buffer (R86). -/
def Obligations.FailedPacketNeverValidates : Prop :=
  ∀ (P : Params) (c : Codec) (bs : List Byte), P.Legal → c.buf.wf → c.xlen ≤ c.len →
    c.valid = false → c.len + bs.length ≤ P.maxLen + 1 →
    let d := c.feeds P bs
    d.len = c.len + bs.length ∧ d.bytes = c.bytes ++ bs ∧ d.xlen = c.xlen ∧ d.valid = false ∧
    (d.len = P.maxLen + 1 → ∀ b, d.feed P b = { d with len := 0 }.feed P b ∧
      (d.feed P b).len = if b = 0x24 then 1 else 0)

/-- FRM.CLR empties the buffer in every state, does not touch `crc` and erases no cell; the derived values
follow; and the next packet fed validates (R87). -/
def Obligations.FrmClrEmpties : Prop :=
  (∀ d, decode (.op (opWord 0x5 d) []) = .ok .frmClr) ∧
  ∀ s : State, ∃ t, exec .frmClr s = .next t ∧ t.codec = { s.codec with len := 0 } ∧
    t.codec.valid = false ∧ t.codec.cmd = 0x00 ∧ t.codec.xlen = 6 ∧ t.returned = s.returned ∧
    s.OthersKept t ∧ exec .frmClr t = .next t ∧
    (s.codec.buf.wf → (t.codec.feeds params [0x24, 0x43, 0x54, 0x27, 0x0A, 0x0D]).valid = true)

/-- The framer as a state machine: the seven conditions exclude each other and cover every good state,
and from each phase the next FRM.FEED does what the table says (R88). -/
def Obligations.PhaseTable : Prop :=
  ∀ (P : Params) (c : Codec), P.Legal → P.hdrMismatchClears = true → c.Ok P →
    (∀ ph, PhaseHolds P c ph ↔ ph = c.phase P) ∧ (c.empty).phase P = .hunt0 ∧
    ∀ b : Byte, let d := c.feed P b
      match c.phase P with
      | .hunt0 => if b = 0x24 then d = c.append b ∧ d.phase P = .hunt1 else d = c
      | .hunt1 =>
        if b = 0x43 then d = c.append b ∧ d.phase P = .cmd else d = c.empty ∧ d.phase P = .hunt0
      | .cmd => d = c.append b ∧ d.cmd = b ∧ d.phase P = .body
      | .body => d = c.append b ∧ d.xlen = c.xlen ∧ (d.len < d.xlen → d.phase P = .body) ∧
          (d.len = d.xlen → d.phase P = if d.valid then .done else .dead)
      | .done => d = c
      | .dead => d = c.append b ∧ (d.len ≤ P.maxLen → d.phase P = .dead) ∧
          (d.len = P.maxLen + 1 → d.phase P = .over)
      | .over => if b = 0x24 then d = c.empty.append b ∧ d.phase P = .hunt1 ∧ d.len = 1
          else d = c.empty ∧ d.phase P = .hunt0

/-- Reaching DONE: a well-formed packet fed from HUNT0 passes HUNT0, HUNT1, CMD, BODY and ends in DONE
with its command and payload, and is in DONE after no shorter stretch of it; for every command code
and every legal `MAXLEN` (R89). -/
def Obligations.PacketRoundTrip : Prop :=
  ∀ (P : Params) (c : Codec) (x : Byte) (p : List Byte), P.Legal → c.buf.wf → c.len = 0 →
    p.length = ext x →
    (∀ n, n < 6 + p.length → let d := c.feeds P ((enc x p).take n)
      d.valid = false ∧ d.len = n ∧
      d.phase P = if n = 0 then .hunt0 else if n = 1 then .hunt1 else if n = 2 then .cmd else .body) ∧
    let d := c.feeds P (enc x p)
    d.phase P = .done ∧ d.valid = true ∧ d.cmd = x ∧ d.pay = p ∧ d.bytes = enc x p

/-- Feeding in chunks is feeding one byte at a time, however the stream is cut (R90). -/
def Obligations.BatchingDoesNotMatter : Prop :=
  ∀ (chunks : List (List Byte)) (s : State),
    execAll (feedsOps chunks.flatten) s =
      .next (s.setCodec (chunks.foldl (fun c chunk => c.feeds params chunk) s.codec))

/-- Garbage that does not hold the header and does not end in its first byte leaves the framer in HUNT0
with nothing buffered, and a packet that follows is received (R91). -/
def Obligations.GarbageThenPacketReceived : Prop :=
  ∀ (P : Params) (c : Codec) (g : List Byte) (x : Byte) (p : List Byte), P.Legal →
    P.hdrMismatchClears = true → c.buf.wf → c.len = 0 →
    ¬ [0x24, 0x43] <:+: g → g.getLast? ≠ some 0x24 → p.length = ext x →
    (c.feeds P g).len = 0 ∧
    let d := c.feeds P (g ++ enc x p)
    d.valid = true ∧ d.cmd = x ∧ d.pay = p

/-! ## The queries -/

/-- The four queries are pure: they change nothing but the results, are defined in every state, and give
the same result wherever the buffer is the same (R100). -/
def Obligations.QueriesArePure : Prop :=
  ∀ i ∈ [Instr.frmCmd, .frmXlen, .frmValid, .frmPay], ∀ s : State, ∃ r : Result,
    exec i s = .next (s.reply r) ∧
    ∀ t : State, t.codec.len = s.codec.len →
      (∀ a, a < s.codec.len → t.codec.buf.read a = s.codec.buf.read a) →
      exec i t = .next (t.reply r)

/-- FRM.CMD (R101). -/
def Obligations.FrmCmdReturns : Prop :=
  (∀ d, decode (.op (opWord 0x6 d) []) = .ok .frmCmd) ∧
  ∀ s : State, ∃ t, exec .frmCmd s = .next t ∧ t.codecs = s.codecs ∧ s.OthersKept t ∧
    t.returned = s.returned ++
      [{ copy := s.sel, value := .byte (if s.codec.len > 2 then s.codec.buf.read 2 else 0x00) }]

/-- FRM.XLEN (R102). -/
def Obligations.FrmXlenReturns : Prop :=
  (∀ d, decode (.op (opWord 0x7 d) []) = .ok .frmXlen) ∧
  ∀ s : State, ∃ t n, exec .frmXlen s = .next t ∧ t.codecs = s.codecs ∧ s.OthersKept t ∧
    t.returned = s.returned ++ [{ copy := s.sel, value := .length n }] ∧
    (n = if s.codec.cmd ∈ [0x42, 0x39, 0x40] then 8
      else if s.codec.cmd ∈ [0x58, 0x36] then 20 else 6) ∧
    (s.codec.len ≤ 2 → n = 6)

/-- FRM.VALID: length, both stop bytes and the checksum from position 0 (R103). -/
def Obligations.FrmValidReturns : Prop :=
  (∀ d, decode (.op (opWord 0x8 d) []) = .ok .frmValid) ∧
  ∀ s : State, ∃ t v, exec .frmValid s = .next t ∧ t.codecs = s.codecs ∧ s.OthersKept t ∧
    t.returned = s.returned ++ [{ copy := s.sel, value := .bit v }] ∧
    (v = true ↔ s.codec.len = s.codec.xlen ∧ s.codec.buf.read (s.codec.len - 2) = 0x0A ∧
      s.codec.buf.read (s.codec.len - 1) = 0x0D ∧
      crc8 (s.codec.slice 0 (s.codec.len - 3)) = s.codec.buf.read (s.codec.len - 3))

/-- FRM.PAY: the payload of a valid packet, of 0, 2 or 14 bytes, and otherwise nothing (R104). -/
def Obligations.FrmPayReturns : Prop :=
  (∀ d, decode (.op (opWord 0x9 d) []) = .ok .frmPay) ∧
  ∀ s : State, ∃ t p, exec .frmPay s = .next t ∧ t.codecs = s.codecs ∧ s.OthersKept t ∧
    t.returned = s.returned ++ [{ copy := s.sel, value := .bytes p }] ∧
    (p = if s.codec.valid then s.codec.slice 3 (s.codec.len - 3) else []) ∧
    (s.codec.valid = true → p.length = s.codec.len - 6 ∧ p.length = ext s.codec.cmd)

/-- A buffer is valid exactly when it is the serializer's output for its own command and payload, and
the payload has the length the command dictates (R106). -/
def Obligations.ValidIffSerializerOutput : Prop :=
  ∀ c : Codec, c.Ok params →
    (c.valid = true ↔ 6 ≤ c.len ∧
      c.bytes = enc (c.buf.read 2) (c.slice 3 (c.len - 3)) ∧ c.len - 6 = ext (c.buf.read 2))

/-- The extension table, on all 256 codes (R54). -/
def Obligations.ExtensionTable : Prop :=
  ext 0x42 = 2 ∧ ext 0x39 = 2 ∧ ext 0x40 = 2 ∧ ext 0x58 = 14 ∧ ext 0x36 = 14 ∧
  ∀ c : Byte, c ∉ [0x42, 0x39, 0x40, 0x58, 0x36] → ext c = 0

/-! ## The serializer -/

/-- SER.ENC returns the packet and changes no state, in any phase of the framer (R111). -/
def Obligations.SerEncReturnsPacket : Prop :=
  (∀ c p, decode (.op (opWord 0xC c) p) = .ok (.serEnc c p)) ∧
  ∀ (c : Byte) (p : List Byte) (s : State), p.length ≤ 33 →
    ∃ t, exec (.serEnc c p) s = .next t ∧ t.codecs = s.codecs ∧ s.OthersKept t ∧
      let out := [0x24, 0x43] ++ [c] ++ p ++ [crc8 ([0x24, 0x43] ++ [c] ++ p)] ++ [0x0A, 0x0D]
      t.returned = s.returned ++ [{ copy := s.sel, value := .bytes out }]

/-- A payload longer than `PAYMAX` is refused; a shorter one is serialized whatever length the command
dictates, to `6 + |p|` bytes (R112). -/
def Obligations.SerEncRefusesLongPayload : Prop :=
  ∀ (c : Byte) (p : List Byte) (s : State),
    (exec (.serEnc c p) s = .refused .payloadTooLong ↔ 33 < p.length) ∧
    (p.length ≤ 33 → ∃ out, exec (.serEnc c p) s = .next (s.reply (.bytes out)) ∧
      out.length = 6 + p.length)

/-- The field map of a packet (R33). -/
def Obligations.PacketFieldMap : Prop :=
  ∀ (c : Byte) (p : List Byte), (enc c p).length = 6 + p.length ∧
    (enc c p)[0]? = some 0x24 ∧ (enc c p)[1]? = some 0x43 ∧ (enc c p)[2]? = some c ∧
    (∀ n, n < p.length → (enc c p)[3 + n]? = p[n]?) ∧
    (enc c p)[3 + p.length]? = some (crc8 ((enc c p).take (3 + p.length))) ∧
    (enc c p)[4 + p.length]? = some 0x0A ∧ (enc c p)[5 + p.length]? = some 0x0D

/-- The laws of `ENC`: injective, determined by its first bytes, zero residue, round trip (R115). -/
def Obligations.SerializerLaws : Prop :=
  (∀ c p c' p', enc c p = enc c' p' → c = c' ∧ p = p') ∧
  (∀ c p, (enc c p).take (3 + p.length) = [0x24, 0x43, c] ++ p ∧
    (enc c p).drop (3 + p.length) = [crc8 ((enc c p).take (3 + p.length)), 0x0A, 0x0D]) ∧
  (∀ c p, crc8 ((enc c p).take (4 + p.length)) = 0x00) ∧
  (∀ (k : Codec) (c : Byte) (p : List Byte), k.buf.wf → k.phase params = .hunt0 →
    p.length = ext c → (k.feeds params (enc c p)).phase params = .done ∧
      (k.feeds params (enc c p)).cmd = c ∧ (k.feeds params (enc c p)).pay = p)

/-- Looped back, a payload of the length its command dictates comes out as it went in: SER.ENC, the
packet fed, the queries and the release, as the host sees them (R60, R89). -/
def Obligations.LoopReturnsCommandAndPayload : Prop :=
  ∀ (c : Byte) (p : List Byte) (s : State), p.length = ext c → s.codec.buf.wf →
    s.codec.len = 0 → ∃ t u, execAll (loopOps c p) s = .next t ∧ execAll (takeOps t) t = .next u ∧
      u.returned = s.returned ++
        [{ copy := s.sel, value := .bytes (enc c p) }, { copy := s.sel, value := .bit true },
         { copy := s.sel, value := .byte c }, { copy := s.sel, value := .bytes p }] ∧
      u.codec.len = 0 ∧ u.codec.crc = s.codec.crc ∧ s.OthersKept u

/-! ## The packet kinds -/

/-- A packet that arrives is its bytes fed one at a time, whatever state the framer is in; and so are any
other bytes presented, be they a packet or not: nothing the framer is fed is refused (R56, R60, R119, R157; that a
packet is one instruction, and that bytes may be presented together, are the model's choices, log entry 3). -/
def Obligations.PacketIsItsBytesFed : Prop :=
  (∀ (i : Instr) (c : Byte) (p : List Byte) (k : Byte) (s : State), i.packet? = some (c, p, k) →
    exec i s = execAll (feedsOps ([0x24, 0x43, c] ++ p ++ [k, 0x0A, 0x0D])) s ∧
    ∃ t, exec i s = .next t ∧ t.returned = s.returned ∧ t.codec.crc = s.codec.crc ∧ s.OthersKept t) ∧
  ∀ (bs : List Byte) (s : State), ∃ t, step (s.presentFirst (.wire bs)) = .next t ∧
    execAll (feedsOps bs) s = .next t

/-- The packet kinds without payload, and the default row, received in HUNT0 (R122, R123, R124, R127,
R129; that a packet is one instruction is the model's choice, log entry 3). -/
def Obligations.SixBytePacketsReceived : Prop :=
  ∀ (s : State) (k : Byte), s.codec.buf.wf → s.codec.len = 0 →
    (k = crc8 [0x24, 0x43, 0x54] → ∃ t, exec (.pktSenddataReq k) s = .next t ∧ Received 0x54 [] s t) ∧
    (k = crc8 [0x24, 0x43, 0x38] → ∃ t, exec (.pktSenddataRsp k) s = .next t ∧ Received 0x38 [] s t) ∧
    (k = crc8 [0x24, 0x43, 0x56] → ∃ t, exec (.pktGetverReq k) s = .next t ∧ Received 0x56 [] s t) ∧
    (k = crc8 [0x24, 0x43, 0x33] → ∃ t, exec (.pktSetdataRsp k) s = .next t ∧ Received 0x33 [] s t) ∧
    (∀ c, assigned c = false → k = crc8 [0x24, 0x43, c] →
      ∃ t, exec (.pktUnassigned c k) s = .next t ∧ Received c [] s t)

/-- The packet kinds with two payload bytes, received in HUNT0 (R120, R121, R125; that a
packet is one instruction is the model's choice, log entry 3). -/
def Obligations.EightBytePacketsReceived : Prop :=
  ∀ (s : State) (x y k : Byte), s.codec.buf.wf → s.codec.len = 0 →
    (k = crc8 [0x24, 0x43, 0x42, x, y] →
      ∃ t, exec (.pktSetbaudReq [x, y] k) s = .next t ∧ Received 0x42 [x, y] s t) ∧
    (k = crc8 [0x24, 0x43, 0x39, x, y] →
      ∃ t, exec (.pktSetbaudRsp [x, y] k) s = .next t ∧ Received 0x39 [x, y] s t) ∧
    (k = crc8 [0x24, 0x43, 0x40, x, y] →
      ∃ t, exec (.pktGetverRsp [x, y] k) s = .next t ∧ Received 0x40 [x, y] s t)

/-- The packet kinds with fourteen payload bytes, received in HUNT0 (R126, R128; that a
packet is one instruction is the model's choice, log entry 3). -/
def Obligations.TwentyBytePacketsReceived : Prop :=
  ∀ (s : State) (p : List Byte) (k : Byte), s.codec.buf.wf → s.codec.len = 0 → p.length = 14 →
    (k = crc8 ([0x24, 0x43, 0x58] ++ p) →
      ∃ t, exec (.pktSetdataReq p k) s = .next t ∧ Received 0x58 p s t) ∧
    (k = crc8 ([0x24, 0x43, 0x36] ++ p) →
      ∃ t, exec (.pktRecvdata p k) s = .next t ∧ Received 0x36 p s t)

/-- A packet with a wrong checksum, received in HUNT0, is a failed packet: it is held in the buffer, never
valid, in phase DEAD (R151, error E3; that a packet is one instruction is the model's choice, log entry 3). -/
def Obligations.WrongChecksumIsDead : Prop :=
  ∀ (i : Instr) (c : Byte) (p : List Byte) (k : Byte) (s : State), i.packet? = some (c, p, k) →
    i.illFormed = some .checksum → s.codec.buf.wf → s.codec.len = 0 →
    ∃ t, exec i s = .next t ∧ t.codec.phase params = .dead ∧ t.codec.valid = false ∧
      t.codec.bytes = [0x24, 0x43, c] ++ p ++ [k, 0x0A, 0x0D] ∧ t.codec.cmd = c ∧ t.codec.pay = []

/-! ## The whole machine -/

/-- The invariants of every reachable state, whatever the host presents; and the length fits its
register (R13). -/
def Obligations.ReachableInvariants : Prop :=
  ∀ s : State, Reachable s → ∀ k : Fin ninst, let c := s.codecs[k]
    c.len ≤ 40 ∧ (1 ≤ c.len → c.buf.read 0 = 0x24) ∧ (2 ≤ c.len → c.buf.read 1 = 0x43) ∧
    (c.valid = true → 6 ≤ c.len ∧ c.len ≤ 20) ∧ c.len < 2 ^ params.lenW

/-- The invariant is kept by every step from every state that has it: buffer in canonical form and
inside its index space, length bound, header cells. -/
def Obligations.StepKeepsInvariant : Prop :=
  ∀ s t : State, s.Inv → step s = .next t → t.Inv

/-- The invariant holds at reset. -/
def Obligations.ResetMeetsInvariant : Prop := State.reset.Inv

/-- How each operation moves `len`: only FRM.FEED adds 1, and not above 39; it goes down only to 0, or to
1 when a header byte triggers the overrun discard; nothing but FRM.FEED and FRM.CLR moves it (R12). -/
def Obligations.LengthMoves : Prop :=
  ∀ (i : Instr) (s t : State), i.packet? = none → exec i s = .next t →
    t.codec.len = s.codec.len ∨ (i = .frmClr ∧ t.codec.len = 0) ∨
    ∃ b, i = .frmFeed b ∧
      ((s.codec.len ≤ 39 ∧ t.codec.len = s.codec.len + 1) ∨
       (s.codec.len = 1 ∧ b ≠ 0x43 ∧ t.codec.len = 0) ∨
       (39 < s.codec.len ∧ t.codec.len = if b = 0x24 then 1 else 0))

/-- The buffer is append-only: an operation that does not empty it leaves every buffered byte, and only
FRM.FEED writes a cell (R11). -/
def Obligations.BufferAppendOnly : Prop :=
  ∀ (i : Instr) (s t : State), i.packet? = none → exec i s = .next t →
    (s.codec.len ≤ t.codec.len → ∀ a, a < s.codec.len → t.codec.buf.read a = s.codec.buf.read a) ∧
    (t.codec.buf = s.codec.buf ∨ ∃ b, i = .frmFeed b)

/-- The cells at `len` and above cannot be observed: from two good states that differ in nothing else, a
step gives outcomes that differ in nothing else (R17, D24). -/
def Obligations.StaleCellsUnobservable : Prop :=
  ∀ s t : State, s.Inv → t.Inv → s.Alike t → OutcomeAlike (step s) (step t)

/-- An operation touches only the copy it names, and what it does there depends on that copy alone
(R19). -/
def Obligations.CopiesShareNothing : Prop :=
  ∀ (i : Instr) (s t u : State), exec i s = .next t →
    s.OthersKept t ∧
    (u.sel = s.sel → u.codec = s.codec → ∃ v new, exec i u = .next v ∧ v.codec = t.codec ∧
      t.returned = s.returned ++ new ∧ v.returned = u.returned ++ new)

/-- Actions on different copies commute: in either order every copy ends in the same state and has
returned the same results in the same order (R37). -/
def Obligations.DifferentCopiesCommute : Prop :=
  ∀ (s t : State) (q r : Input) (rest : List Input), q.copy ≠ r.copy →
    run 2 { s with pending := q :: r :: rest } = .next t →
    ∃ u : State, run 2 { s with pending := r :: q :: rest } = .next u ∧
      u.codecs = t.codecs ∧ u.pending = t.pending ∧
      ∀ k : Fin ninst, u.returned.filter (fun x => x.copy = k) = t.returned.filter (fun x => x.copy = k)

/-- What has been returned belongs to the host: no step changes an earlier result, and a step returns at
most one (R35; the list of results is the model's own, log entry 2). -/
def Obligations.ResultsAreSnapshots : Prop :=
  ∀ s t : State, step s = .next t →
    ∃ new : List Reply, t.returned = s.returned ++ new ∧ new.length ≤ 1

/-! ## The host's side -/

/-- The accessors exactly invert the data packet builder, for every length from 0 to 8 with at least that
many data bytes, of which the builder takes as many as the length says; the payload always has 14 bytes, the
reserved byte and the padding 0x00 (R136, R138). -/
def Obligations.DataPayloadInverts : Prop :=
  ∀ f : CanFrame, f.length ≤ 8 → f.length ≤ f.data.length →
    ∃ p, dataPayload f = some p ∧ p.length = 14 ∧
      readData p = some { f with data := f.data.take f.length } ∧
      p[0]? = some 0x00 ∧ ∀ i, f.length ≤ i → i < 8 → p[6 + i]? = some 0x00

/-- The Bridge's operations on one received byte do on the block what `bridgeByte` says, and leave the
framer outside DONE, so that no byte is ever fed to a held packet; a byte that completes no packet sends
nothing to a sink (R139). For every event the actions that the Bridge presents run, each direction on its own
copy; for a CAN frame the bytes that SER.ENC returns are what goes to the serial sink, and no framer is fed
(R140). -/
def Obligations.BridgeNeverFeedsHeldPacket : Prop :=
  (∀ (b : Byte) (s : State) (c : Codec) (out : BridgeOut), bridgeByte b s.codec = some (c, out) →
    c.valid = false ∧ (∃ t, execAll (bridgeOps b s.codec) s = .next t ∧ t.codec = c) ∧
    ((s.codec.feed params b).valid = false → out = { toCan := none, toSerial := none })) ∧
  ∀ (e : BridgeEvent) (g h : Bridge) (s : State), g.handle e = some h → s.codecs = g.codecs →
    s.pending = [] → ∃ acts t, g.actions e = some acts ∧
      run acts.length { s with pending := acts } = .next t ∧ t.codecs = h.codecs ∧
      (∀ b, e = .serialByte b → h.codecs[serialToCan].valid = false ∧
        h.codecs[canToSerial] = g.codecs[canToSerial]) ∧
      (∀ f, e = .canFrame f → h.codecs = g.codecs ∧ h.canSink = g.canSink ∧
        ∃ bytes, t.returned = s.returned ++ [{ copy := canToSerial, value := .bytes bytes }] ∧
          h.serialSink = g.serialSink ++ [bytes])

/-- What the Bridge hands to its sinks. Receiving in HUNT0 it hands the CAN frame of every receive-data
packet to the CAN sink, whatever the reserved byte and the padding are, the handshake packet of a set-data
response to the serial sink, and of any other packet nothing, and is back in HUNT0 (R138, R139); a length
field above 8 has no meaning (log entry 8). A CAN frame it hands as a set-data request to the serial sink
(R136, R140). -/
def Obligations.BridgeDelivers : Prop :=
  (∀ c : Codec, c.buf.wf → c.len = 0 →
    (∀ (r fl i0 i1 i2 i3 : Byte) (d : List Byte), d.length = 8 →
      let n := (fl &&& 0x7F).toNat
      let f : CanFrame :=
        { extended := fl.msb, id := i3 ++ i2 ++ i1 ++ i0, length := n, data := d.take n }
      let run := bridgeRun (enc 0x36 (r :: fl :: i0 :: i1 :: i2 :: i3 :: d)) c
      if n ≤ 8 then ∃ e, run = some (e, [f], []) ∧ e.len = 0 else run = none) ∧
    (∀ (f : CanFrame) (p : List Byte), dataPayload f = some p → ∃ e,
      bridgeRun (enc 0x36 p) c = some (e, [{ f with data := f.data.take f.length }], []) ∧ e.len = 0) ∧
    (∃ e, bridgeRun (enc 0x33 []) c = some (e, [], [[0x24, 0x43, 0x54, 0x27, 0x0A, 0x0D]]) ∧ e.len = 0) ∧
    (∀ (x : Byte) (p : List Byte), x ≠ 0x36 → x ≠ 0x33 → p.length = ext x →
      ∃ e, bridgeRun (enc x p) c = some (e, [], []) ∧ e.len = 0)) ∧
  ∀ (g : Bridge) (f : CanFrame), f.length ≤ 8 → f.length ≤ f.data.length →
    ∃ p, dataPayload f = some p ∧
      g.handle (.canFrame f) = some { g with serialSink := g.serialSink ++ [enc 0x58 p] }

/-- The baud-rate builder rejects exactly the unrecognised rates; for a recognised one it builds a
set-baud-rate request, whatever the open code table and layout are (R137). -/
def Obligations.BaudPacketBuilt : Prop :=
  ∀ rate : Nat,
    (baudPacket rate = none ↔ rate ∉ [50000, 100000, 250000, 500000, 1000000]) ∧
    ∀ bs, baudPacket rate = some bs → ∃ x y, bs = enc 0x42 [x, y] ∧
      decode (.wire bs) = .ok (.pktSetbaudReq [x, y] (crc8 [0x24, 0x43, 0x42, x, y]))
end

