-- ==== Sys2Proof/Laws/Decode.lean ====
section
/-! SUPPORT. The decoder, said once: the fields of an operation word, and which packets decode to what. -/

namespace Sys2Proof

open Machine

@[simp] theorem opField_opWord : ∀ (op : BitVec 4) (d : Byte), opField (opWord op d) = op := by
  decide +kernel

@[simp] theorem dataField_opWord : ∀ (op : BitVec 4) (d : Byte), dataField (opWord op d) = d := by
  decide +kernel

/-- A word is its two fields. -/
theorem opWord_fields : ∀ w : OpWord, opWord (opField w) (dataField w) = w := by decide +kernel

/-- The operation of a word, by the fields it was made of. -/
theorem decodeOp_opWord (op : BitVec 4) (d : Byte) (p : List Byte) :
    decodeOp (opWord op d) p =
      match op with
      | 0x0#4 => .ok .crcClr
      | 0x1#4 => .ok (.crcUpd d)
      | 0x2#4 => .ok .crcRd
      | 0x4#4 => .ok (.frmFeed d)
      | 0x5#4 => .ok .frmClr
      | 0x6#4 => .ok .frmCmd
      | 0x7#4 => .ok .frmXlen
      | 0x8#4 => .ok .frmValid
      | 0x9#4 => .ok .frmPay
      | 0xC#4 => .ok (.serEnc d p)
      | op => .error (.reservedOp op) := by
  rw [decodeOp, opField_opWord, dataField_opWord] <;> rfl

/-- A packet of the right length decodes to the kind of its command. -/
theorem decodePacket_packetBytes {c : Byte} {p : List Byte} (k : Byte) (h : p.length = ext c) :
    decodePacket (packetBytes c p k) = .ok (packetInstr c p k) := by
  simp only [packetBytes, covered, List.cons_append, decodePacket]
  simp [← h]

/-- Only a packet of the right length decodes. -/
theorem exists_of_decodePacket {bs : List Byte} {i : Instr} (h : decodePacket bs = .ok i) :
    ∃ c p k, p.length = ext c ∧ bs = packetBytes c p k ∧ i = packetInstr c p k := by
  unfold decodePacket at h
  split at h
  · next h0 h1 c rest =>
    split at h
    · cases h
    · next hh =>
      push Not at hh
      simp only at h
      split at h
      · next k s0 s1 hd =>
        split at h
        · cases h
        · next hs =>
          push Not at hs
          have hl : (rest.take (ext c)).length = ext c := by
            have := congrArg List.length hd
            simp only [List.length_drop, List.length_cons, List.length_nil] at this
            rw [List.length_take]
            omega
          refine ⟨c, rest.take (ext c), k, hl, ?_, (Except.ok.inj h).symm⟩
          simp only [packetBytes, covered, hh.1, hh.2]
          rw [← hs.1, ← hs.2, ← hd]
          simp
      · cases h
  · cases h

/-- Where the command dictates no payload there is none. -/
theorem eq_nil_of_unextended {c : Byte} {p : List Byte} (h : p.length = ext c) (h0 : ext c = 0) :
    p = [] := List.length_eq_zero_iff.mp (h.trans h0)

end Sys2Proof
end

