-- ==== Sys2Proof/Laws/Memory.lean ====
section
/-! SUPPORT. The buffer cells: a read after a write, the canonical form kept by every write, and equal
contents as equal data. -/

namespace Sys2Proof.Machine

@[simp] theorem Memory.read_nil (a : Nat) : Memory.read [] a = Config.unwrittenCell := rfl

theorem Memory.read_cons (k : Nat) (v : Byte) (rest : Memory) (a : Nat) :
    Memory.read ((k, v) :: rest) a = if k = a then v else Memory.read rest a := rfl

/-- A cell no entry names reads as an unwritten one. -/
theorem Memory.read_of_not_mem {m : Memory} {a : Nat} (h : ∀ c ∈ m, c.1 ≠ a) :
    m.read a = Config.unwrittenCell := by
  induction m with
  | nil => rfl
  | cons c rest ih =>
    obtain ⟨k, v⟩ := c
    have hk : k ≠ a := h (k, v) List.mem_cons_self
    rw [read_cons, if_neg hk]
    exact ih fun c hc => h c (List.mem_cons_of_mem _ hc)

/-- A write leaves every other cell alone, whatever the list. -/
theorem Memory.read_write_ne (m : Memory) {a x : Nat} (v : Byte) (h : x ≠ a) :
    (m.write a v).read x = m.read x := by
  induction m with
  | nil =>
    simp only [write]
    split
    · rfl
    · rw [read_cons, if_neg (Ne.symm h)]
  | cons c rest ih =>
    obtain ⟨k, y⟩ := c
    simp only [write]
    split
    · rw [read_cons, read_cons, ih]
    · split <;> split <;> simp_all [read_cons, Ne.symm h]

/-- The cell that was written reads as the byte written. -/
theorem Memory.read_write_same {m : Memory} (hm : m.wf) (a : Nat) (v : Byte) :
    (m.write a v).read a = v := by
  induction m with
  | nil =>
    simp only [write]
    split
    · next h => rw [h]; rfl
    · rw [read_cons, if_pos rfl]
  | cons c rest ih =>
    obtain ⟨k, y⟩ := c
    have hrest : Memory.wf rest :=
      ⟨(List.pairwise_cons.mp hm.1).2, fun c hc => hm.2 c (List.mem_cons_of_mem _ hc)⟩
    have hlt : ∀ c ∈ rest, k < c.1 := fun c hc => (List.pairwise_cons.mp hm.1).1 c hc
    simp only [write]
    split
    · next h => rw [read_cons, if_neg (by omega), ih hrest]
    · next h =>
      by_cases hv : v = Config.unwrittenCell
      · simp only [hv, if_true]
        apply read_of_not_mem
        split
        · next hk => subst hk; exact fun c hc => by have := hlt c hc; omega
        · next hk =>
          intro c hc
          rcases List.mem_cons.mp hc with rfl | hc
          · exact hk
          · have := hlt c hc; omega
      · simp only [if_neg hv, read_cons, if_true]

/-- What a write can put into the list. -/
theorem Memory.mem_write {m : Memory} {a : Nat} {v : Byte} {c : Host.Cell} (h : c ∈ m.write a v) :
    c ∈ m ∨ (c = (a, v) ∧ v ≠ Config.unwrittenCell) := by
  induction m with
  | nil =>
    simp only [write] at h
    split at h <;> simp_all
  | cons d rest ih =>
    obtain ⟨k, y⟩ := d
    simp only [write] at h
    split at h
    · rcases List.mem_cons.mp h with rfl | h
      · exact .inl List.mem_cons_self
      · exact (ih h).imp_left (List.mem_cons_of_mem _)
    · by_cases hv : v = Config.unwrittenCell <;> by_cases hk : k = a <;> simp_all <;> tauto

/-- Every write keeps the canonical form. -/
theorem Memory.wf_write {m : Memory} (hm : m.wf) (a : Nat) (v : Byte) : (m.write a v).wf := by
  refine ⟨?_, fun c hc => ?_⟩
  · induction m with
    | nil => simp only [write]; split <;> simp
    | cons c rest ih =>
      obtain ⟨k, y⟩ := c
      have hp := List.pairwise_cons.mp hm.1
      have hrest : Memory.wf rest := ⟨hp.2, fun c hc => hm.2 c (List.mem_cons_of_mem _ hc)⟩
      simp only [write]
      split
      · next h =>
        refine List.pairwise_cons.mpr ⟨fun d hd => ?_, ih hrest⟩
        rcases mem_write hd with hd | ⟨rfl, _⟩
        · exact hp.1 d hd
        · exact h
      · next h =>
        by_cases hk : k = a
        · subst hk
          split <;> simp only [if_true]
          · exact hp.2
          · exact List.pairwise_cons.mpr ⟨hp.1, hp.2⟩
        · have hak : a < k := by omega
          simp only [if_neg hk]
          split
          · exact hm.1
          · refine List.pairwise_cons.mpr ⟨fun d hd => ?_, hm.1⟩
            rcases List.mem_cons.mp hd with rfl | hd
            · exact hak
            · exact Nat.lt_trans hak (hp.1 d hd)
  · rcases mem_write hc with hc | ⟨rfl, hv⟩
    · exact hm.2 c hc
    · exact hv

/-- In canonical form an entry is what its cell reads as. -/
theorem Memory.read_of_mem {m : Memory} (hm : m.wf) {c : Host.Cell} (hc : c ∈ m) :
    m.read c.1 = c.2 := by
  induction m with
  | nil => cases hc
  | cons d rest ih =>
    obtain ⟨k, y⟩ := d
    have hp := List.pairwise_cons.mp hm.1
    rcases List.mem_cons.mp hc with rfl | hc
    · rw [read_cons, if_pos rfl]
    · have := hp.1 c hc
      rw [read_cons, if_neg (by omega)]
      exact ih ⟨hp.2, fun c hc => hm.2 c (List.mem_cons_of_mem _ hc)⟩ hc

/-- Equal contents are equal data. -/
theorem Memory.eq_of_read_eq {m n : Memory} (hm : m.wf) (hn : n.wf)
    (h : ∀ a, m.read a = n.read a) : m = n := by
  have key : ∀ {p q : Memory}, p.wf → q.wf → (∀ a, p.read a = q.read a) → ∀ c ∈ p, c ∈ q := by
    intro p q hp _ hpq c hc
    by_contra hcq
    by_cases hex : ∃ d ∈ q, d.1 = c.1
    · obtain ⟨d, hd, hdc⟩ := hex
      have h1 := read_of_mem hp hc
      have h2 := read_of_mem ‹q.wf› hd
      rw [hdc, ← hpq, h1] at h2
      exact hcq (by rwa [show c = d from Prod.ext hdc.symm h2])
    · have := read_of_not_mem (m := q) (a := c.1) (fun d hd hdc => hex ⟨d, hd, hdc⟩)
      rw [← hpq, read_of_mem hp hc] at this
      exact hp.2 c hc this
  have asymm : ∀ {p : Memory}, p.wf → p.Pairwise (fun x y => x.1 < y.1) := fun hp => hp.1
  refine List.Perm.eq_of_pairwise (le := fun x y : Host.Cell => x.1 < y.1) ?_ (asymm hm) (asymm hn) ?_
  · intro x y _ _ hxy hyx
    exact absurd (Nat.lt_trans hxy hyx) (Nat.lt_irrefl _)
  · have nodup : ∀ {p : Memory}, p.wf → p.Nodup := fun hp =>
      hp.1.imp fun hxy he => by subst he; exact Nat.lt_irrefl _ hxy
    exact (List.perm_ext_iff_of_nodup (nodup hm) (nodup hn)).mpr fun c =>
      ⟨key hm hn h c, key hn hm (fun a => (h a).symm) c⟩

end Sys2Proof.Machine
end

