-- ==== Sys2Proof/Laws/State.lean ====
section
/-! SUPPORT. One lemma for each field under each update of a state or of one copy of the block. -/

namespace Sys2Proof.Machine

section Codec
variable (c : Codec) (b : Byte)

@[simp] theorem Codec.append_len : (c.append b).len = c.len + 1 := rfl
@[simp] theorem Codec.append_buf : (c.append b).buf = c.buf.write c.len b := rfl
@[simp] theorem Codec.append_crc : (c.append b).crc = c.crc := rfl
@[simp] theorem Codec.empty_len : c.empty.len = 0 := rfl
@[simp] theorem Codec.empty_buf : c.empty.buf = c.buf := rfl
@[simp] theorem Codec.empty_crc : c.empty.crc = c.crc := rfl
@[simp] theorem Codec.hardReset_len : c.hardReset.len = 0 := rfl
@[simp] theorem Codec.hardReset_buf : c.hardReset.buf = c.buf := rfl
@[simp] theorem Codec.hardReset_crc : c.hardReset.crc = 0x00 := rfl

@[simp] theorem Codec.length_slice (i j : Nat) : (c.slice i j).length = j - i := by
  simp [Codec.slice]

@[simp] theorem Codec.length_bytes : c.bytes.length = c.len := by simp [Codec.bytes]

theorem Codec.getElem_slice (i j n : Nat) (h : n < (c.slice i j).length) :
    (c.slice i j)[n] = c.buf.read (i + n) := by simp [Codec.slice]

/-- Reading a stretch of cells depends on those cells alone. -/
theorem Codec.slice_congr {c d : Codec} {i j : Nat}
    (h : ∀ a, i ≤ a → a < j → c.buf.read a = d.buf.read a) : c.slice i j = d.slice i j := by
  apply List.map_congr_left
  intro a ha
  rw [List.mem_range'] at ha
  obtain ⟨n, hn, rfl⟩ := ha
  exact h _ (by omega) (by omega)

/-- The derived values never look at `crc` (R14). -/
@[simp] theorem Codec.cmd_setCrc (x : Byte) : Codec.cmd { c with crc := x } = c.cmd := rfl
@[simp] theorem Codec.xlen_setCrc (x : Byte) : Codec.xlen { c with crc := x } = c.xlen := rfl
@[simp] theorem Codec.valid_setCrc (x : Byte) : Codec.valid { c with crc := x } = c.valid := rfl
@[simp] theorem Codec.pay_setCrc (x : Byte) : Codec.pay { c with crc := x } = c.pay := rfl

end Codec

section State
variable (s : State) (c d : Codec) (r : Result) (p : Presented)

@[simp] theorem State.setCodec_sel : (s.setCodec c).sel = s.sel := rfl
@[simp] theorem State.setCodec_pending : (s.setCodec c).pending = s.pending := rfl
@[simp] theorem State.setCodec_returned : (s.setCodec c).returned = s.returned := rfl

@[simp] theorem State.codec_setCodec : (s.setCodec c).codec = c := by
  simp [State.codec, State.setCodec]

theorem State.codecs_setCodec_of_ne {k : Fin ninst} (h : k ≠ s.sel) :
    (s.setCodec c).codecs[k] = s.codecs[k] := by
  have : s.sel.val ≠ k.val := fun e => h (Fin.ext e.symm)
  simp [State.setCodec, Vector.getElem_set_ne, this]

@[simp] theorem State.setCodec_setCodec : (s.setCodec c).setCodec d = s.setCodec d := by
  simp [State.setCodec]

@[simp] theorem State.setCodec_codec : s.setCodec s.codec = s := by
  simp [State.setCodec, State.codec]

@[simp] theorem State.reply_sel : (s.reply r).sel = s.sel := rfl
@[simp] theorem State.reply_pending : (s.reply r).pending = s.pending := rfl
@[simp] theorem State.reply_codecs : (s.reply r).codecs = s.codecs := rfl
@[simp] theorem State.reply_codec : (s.reply r).codec = s.codec := rfl
@[simp] theorem State.reply_returned :
    (s.reply r).returned = s.returned ++ [{ copy := s.sel, value := r }] := rfl

@[simp] theorem State.presentFirst_sel : (s.presentFirst p).sel = s.sel := rfl
@[simp] theorem State.presentFirst_codecs : (s.presentFirst p).codecs = s.codecs := rfl
@[simp] theorem State.presentFirst_returned : (s.presentFirst p).returned = s.returned := rfl
@[simp] theorem State.presentFirst_pending :
    (s.presentFirst p).pending = { copy := s.sel, what := .present p } :: s.pending := rfl

/-- What is presented first is what is taken first, and taking it leaves the state it was added to. -/
@[simp] theorem State.take?_presentFirst : (s.presentFirst p).take? = some (.present p, s) := rfl

@[simp] theorem State.take?_nil (h : s.pending = []) : s.take? = none := by
  simp [State.take?, h]

theorem State.take?_cons {q : Input} {rest : List Input} (h : s.pending = q :: rest) :
    s.take? = some (q.what, { s with pending := rest, sel := q.copy }) := by
  simp [State.take?, h]

end State

@[simp] theorem params_maxLen : params.maxLen = 39 := rfl
@[simp] theorem params_hdrMismatchClears : params.hdrMismatchClears = true := rfl
@[simp] theorem params_bufCap : params.bufCap = 40 := rfl
@[simp] theorem params_payMax : params.payMax = 33 := rfl

end Sys2Proof.Machine
end

