-- ==== Sys2Proof/Laws/Framer.lean ====
section
/-! SUPPORT. The derived values of the buffer and everything that feeding bytes can do to a copy of the
block, said once. -/

namespace Sys2Proof.Machine

variable (P : Params) (b : Byte) (c : Codec)

/-! ## Stretches of cells and the append -/

theorem Codec.slice_split {i j k : Nat} (h1 : i ≤ j) (h2 : j ≤ k) :
    c.slice i k = c.slice i j ++ c.slice j k := by
  simp only [Codec.slice, ← List.map_append]
  congr 1
  rw [show k - i = (j - i) + (k - j) by omega, ← List.range'_append_1, show i + (j - i) = j by omega]

theorem Codec.slice_one (i : Nat) : c.slice i (i + 1) = [c.buf.read i] := by simp [Codec.slice]

theorem Codec.append_read_of_ne {a : Nat} (h : a ≠ c.len) :
    (c.append b).buf.read a = c.buf.read a := Memory.read_write_ne _ _ h

theorem Codec.append_read_len {c : Codec} (h : c.buf.wf) : (c.append b).buf.read c.len = b :=
  Memory.read_write_same h _ _

theorem Codec.append_wf {c : Codec} (h : c.buf.wf) : (c.append b).buf.wf := Memory.wf_write h _ _

theorem Codec.append_bytes {c : Codec} (h : c.buf.wf) : (c.append b).bytes = c.bytes ++ [b] := by
  simp only [Codec.bytes, Codec.append_len]
  rw [Codec.slice_split _ (Nat.zero_le c.len) (Nat.le_succ _), Codec.slice_one,
    Codec.append_read_len b h]
  congr 1
  exact Codec.slice_congr fun a _ h => Codec.append_read_of_ne _ _ (Nat.ne_of_lt h)

theorem Codec.empty_of_len_eq_zero {c : Codec} (h : c.len = 0) : c.empty = c := by
  cases c
  simp_all [Codec.empty]

/-! ## The derived values -/

/-- The extension of a command is 0, 2 or 14. -/
theorem ext_cases (x : Byte) : ext x = 0 ∨ ext x = 2 ∨ ext x = 14 := by
  unfold ext
  split
  · simp
  · split <;> simp

theorem Codec.xlen_cases : c.xlen = 6 ∨ c.xlen = 8 ∨ c.xlen = 20 := by
  have := ext_cases c.cmd
  simp only [Codec.xlen, minLen]
  omega

theorem Codec.len_eq_xlen_of_valid {c : Codec} (h : c.valid = true) : c.len = c.xlen := by
  simp only [Codec.valid, Bool.and_eq_true, decide_eq_true_eq] at h
  exact h.1.1.1

theorem Codec.not_valid_of_len_ne {c : Codec} (h : c.len ≠ c.xlen) : c.valid = false := by
  by_contra hv
  exact h (Codec.len_eq_xlen_of_valid (by simpa using hv))

/-- No packet is shorter than 6 bytes. -/
theorem Codec.not_valid_of_lt {c : Codec} (h : c.len < 6) : c.valid = false :=
  Codec.not_valid_of_len_ne (by have := c.xlen_cases; omega)

/-- No packet is longer than 20 bytes. -/
theorem Codec.not_valid_of_gt {c : Codec} (h : 20 < c.len) : c.valid = false :=
  Codec.not_valid_of_len_ne (by have := c.xlen_cases; omega)

/-- Once the command is in, an append does not move it. -/
theorem Codec.append_cmd {c : Codec} (h : 3 ≤ c.len) : (c.append b).cmd = c.cmd := by
  unfold Codec.cmd
  rw [if_pos (show 2 < (c.append b).len by rw [Codec.append_len]; omega), if_pos (by omega),
    Codec.append_read_of_ne _ _ (by omega)]

theorem Codec.append_xlen {c : Codec} (h : 3 ≤ c.len) : (c.append b).xlen = c.xlen := by
  simp only [Codec.xlen, Codec.append_cmd b h]

/-- The derived values depend on the buffered bytes alone. -/
theorem Codec.derived_congr {c d : Codec} (hl : c.len = d.len)
    (h : ∀ a, a < c.len → c.buf.read a = d.buf.read a) :
    c.cmd = d.cmd ∧ c.xlen = d.xlen ∧ c.valid = d.valid ∧ c.pay = d.pay := by
  have hc : c.cmd = d.cmd := by
    unfold Codec.cmd
    rw [← hl]
    split
    · exact h 2 ‹_›
    · rfl
  have hx : c.xlen = d.xlen := by simp only [Codec.xlen, hc]
  have hs : ∀ i j, j ≤ c.len → c.slice i j = d.slice i j := fun i j hj =>
    Codec.slice_congr fun a _ ha => h a (by omega)
  have hv : c.valid = d.valid := by
    by_cases h6 : c.len < 6
    · rw [Codec.not_valid_of_lt h6, Codec.not_valid_of_lt (hl ▸ h6)]
    · simp only [Codec.valid, ← hl, ← hx, hs 0 (c.len - 3) (by omega), h (c.len - 2) (by omega),
        h (c.len - 1) (by omega), h (c.len - 3) (by omega)]
  refine ⟨hc, hx, hv, ?_⟩
  unfold Codec.pay
  rw [hv, ← hl, hs 3 (c.len - 3) (by omega)]

/-! ## The phases -/

theorem Codec.phase_done {d : Codec} (h : d.valid = true) : d.phase P = .done := by
  have := Codec.len_eq_xlen_of_valid h
  have := d.xlen_cases
  rw [Codec.phase, if_neg (by omega), if_neg (by omega), if_neg (by omega), if_pos h]

theorem Codec.phase_body {d : Codec} (h : 3 ≤ d.len) (hx : d.len < d.xlen) : d.phase P = .body := by
  rw [Codec.phase, if_neg (by omega), if_neg (by omega), if_neg (by omega),
    if_neg (by simp [Codec.not_valid_of_len_ne (Nat.ne_of_lt hx)]), if_pos hx]

theorem Codec.phase_dead {d : Codec} (h : d.valid = false) (h1 : d.xlen ≤ d.len)
    (h2 : d.len ≤ P.maxLen) : d.phase P = .dead := by
  have := d.xlen_cases
  rw [Codec.phase, if_neg (by omega), if_neg (by omega), if_neg (by omega), if_neg (by simp [h]),
    if_neg (by omega), if_pos h2]

theorem Codec.phase_over {d : Codec} (hP : P.Legal) (h : P.maxLen < d.len) : d.phase P = .over := by
  have := d.xlen_cases
  have : 20 ≤ P.maxLen := hP
  rw [Codec.phase, if_neg (by omega), if_neg (by omega), if_neg (by omega),
    if_neg (by simp [Codec.not_valid_of_gt (show 20 < d.len by omega)]), if_neg (by omega),
    if_neg (by omega)]

theorem params_legal : params.Legal := by decide

/-! ## Feeding one byte -/

theorem Codec.discard_of_le (h : c.len ≤ P.maxLen) : c.discard P = c :=
  if_neg (Nat.not_lt.mpr h)

theorem Codec.discard_of_lt (h : P.maxLen < c.len) : c.discard P = c.empty := if_pos h

theorem Codec.discard_cases :
    (c.discard P = c ∧ c.len ≤ P.maxLen) ∨ (c.discard P = c.empty ∧ P.maxLen < c.len) := by
  by_cases h : P.maxLen < c.len
  · exact .inr ⟨c.discard_of_lt P h, h⟩
  · exact .inl ⟨c.discard_of_le P (by omega), by omega⟩

@[simp] theorem Codec.discard_buf : (c.discard P).buf = c.buf := by
  unfold Codec.discard; split <;> rfl

@[simp] theorem Codec.discard_crc : (c.discard P).crc = c.crc := by
  unfold Codec.discard; split <;> rfl

/-- The steps of R80 that a byte goes through when no overrun discard comes first: the completed
packet is held, or the header window takes or rejects the byte, or the byte is appended. -/
theorem Codec.accept_cases :
    (c.valid = true ∧ c.accept P b = c) ∨
    (c.valid = false ∧ c.len < 2 ∧ b = hdr c.len ∧ c.accept P b = c.append b) ∨
    (c.valid = false ∧ c.len < 2 ∧ b ≠ hdr c.len ∧
      c.accept P b = if P.hdrMismatchClears then c.empty else c) ∨
    (c.valid = false ∧ 2 ≤ c.len ∧ c.accept P b = c.append b) := by
  unfold Codec.accept
  by_cases hv : c.valid = true
  · exact .inl ⟨hv, by rw [if_pos hv]⟩
  · have hf : c.valid = false := by simpa using hv
    by_cases hl : c.len < 2
    · by_cases hb : b = hdr c.len
      · exact .inr (.inl ⟨hf, hl, hb, by rw [if_neg hv, if_pos hl, if_pos hb]⟩)
      · exact .inr (.inr (.inl ⟨hf, hl, hb, by rw [if_neg hv, if_pos hl, if_neg hb]⟩))
    · exact .inr (.inr (.inr ⟨hf, by omega, by rw [if_neg hv, if_neg hl]⟩))

/-- Feeding never touches the stand-alone accumulator (R14). -/
@[simp] theorem Codec.feed_crc : (c.feed P b).crc = c.crc := by
  unfold Codec.feed
  rcases Codec.accept_cases P b (c.discard P) with ⟨_, h⟩ | ⟨_, _, _, h⟩ | ⟨_, _, _, h⟩ | ⟨_, _, h⟩ <;>
    rw [h]
  · exact c.discard_crc P
  · exact c.discard_crc P
  · split <;> exact c.discard_crc P
  · exact c.discard_crc P

/-- Nor does it read it. -/
theorem Codec.feed_setCrc (x : Byte) :
    Codec.feed P b { c with crc := x } = { c.feed P b with crc := x } := by
  have hd : Codec.discard P { c with crc := x } = { c.discard P with crc := x } := by
    unfold Codec.discard
    split <;> rfl
  unfold Codec.feed
  rw [hd]
  generalize c.discard P = d
  have hv := d.valid_setCrc x
  unfold Codec.accept
  rw [hv]
  split
  · rfl
  · simp only
    split
    · split
      · rfl
      · split <;> rfl
    · rfl

/-- Every feed keeps the canonical form of the cells. -/
theorem Codec.feed_wf {c : Codec} (h : c.buf.wf) : (c.feed P b).buf.wf := by
  have hd : (c.discard P).buf.wf := by rw [Codec.discard_buf]; exact h
  unfold Codec.feed
  rcases Codec.accept_cases P b (c.discard P) with ⟨_, e⟩ | ⟨_, _, _, e⟩ | ⟨_, _, _, e⟩ | ⟨_, _, e⟩ <;>
    rw [e]
  · exact hd
  · exact Codec.append_wf b hd
  · split <;> exact hd
  · exact Codec.append_wf b hd

theorem Codec.feed_of_le {c : Codec} (h : c.len ≤ P.maxLen) : c.feed P b = c.accept P b := by
  rw [Codec.feed, Codec.discard_of_le P c h]

/-- Strictly above `MAXLEN` a byte meets an emptied buffer (R82). -/
theorem Codec.feed_over {c : Codec} (h : P.maxLen < c.len) : c.feed P b = c.empty.feed P b := by
  rw [Codec.feed, Codec.discard_of_lt P c h, Codec.feed,
    Codec.discard_of_le P c.empty (Nat.zero_le _)]

/-- A completed packet is held (R83). -/
theorem Codec.feed_valid {c : Codec} (hP : P.Legal) (hv : c.valid = true) : c.feed P b = c := by
  have := Codec.len_eq_xlen_of_valid hv
  have := c.xlen_cases
  have : 20 ≤ P.maxLen := hP
  rw [Codec.feed_of_le P b (by omega), Codec.accept, if_pos hv]

/-- The header window (R84). -/
theorem Codec.feed_window {c : Codec} (hP : P.Legal) (h : c.len < 2) :
    c.feed P b =
      if b = hdr c.len then c.append b else if P.hdrMismatchClears then c.empty else c := by
  have : 20 ≤ P.maxLen := hP
  rw [Codec.feed_of_le P b (by omega), Codec.accept,
    if_neg (by simp [Codec.not_valid_of_lt (show c.len < 6 by omega)]), if_pos h]

theorem Codec.feed_hunt0 {c : Codec} (hP : P.Legal) (h : c.len = 0) :
    c.feed P b = if b = 0x24 then c.append b else c := by
  rw [Codec.feed_window P b hP (by omega), h, Codec.empty_of_len_eq_zero h]
  simp [hdr]

/-- The append (R85). -/
theorem Codec.feed_append {c : Codec} (h : c.len ≤ P.maxLen) (h2 : 2 ≤ c.len)
    (hv : c.valid = false) : c.feed P b = c.append b := by
  rw [Codec.feed_of_le P b h, Codec.accept, if_neg (by simp [hv]), if_neg (by omega)]

/-! ## Feeding a sequence -/

@[simp] theorem Codec.feeds_nil : c.feeds P [] = c := rfl

@[simp] theorem Codec.feeds_cons (bs : List Byte) :
    c.feeds P (b :: bs) = (c.feed P b).feeds P bs := rfl

theorem Codec.feeds_append (u v : List Byte) : c.feeds P (u ++ v) = (c.feeds P u).feeds P v := by
  simp [Codec.feeds]

theorem Codec.feeds_concat (bs : List Byte) : c.feeds P (bs ++ [b]) = (c.feeds P bs).feed P b := by
  simp [Codec.feeds]

@[simp] theorem Codec.feeds_crc (bs : List Byte) : (c.feeds P bs).crc = c.crc := by
  induction bs generalizing c with
  | nil => rfl
  | cons b bs ih => rw [Codec.feeds_cons, ih, Codec.feed_crc]

theorem Codec.feeds_setCrc (x : Byte) (bs : List Byte) :
    Codec.feeds P bs { c with crc := x } = { c.feeds P bs with crc := x } := by
  induction bs generalizing c with
  | nil => rfl
  | cons b bs ih => rw [Codec.feeds_cons, Codec.feed_setCrc, ih, Codec.feeds_cons]

theorem Codec.feeds_wf {c : Codec} (bs : List Byte) (h : c.buf.wf) : (c.feeds P bs).buf.wf := by
  induction bs generalizing c with
  | nil => exact h
  | cons b bs ih => exact ih (Codec.feed_wf P b h)

theorem Codec.feeds_valid {c : Codec} (bs : List Byte) (hP : P.Legal) (hv : c.valid = true) :
    c.feeds P bs = c := by
  induction bs with
  | nil => rfl
  | cons b bs ih => rw [Codec.feeds_cons, Codec.feed_valid P b hP hv, ih]

end Sys2Proof.Machine
end

