-- ==== Sys2Proof/Laws/Exec.lean ====
section
/-! SUPPORT. What performing an instruction, and what one step, can do, said once. -/

namespace Sys2Proof.Machine

@[simp] theorem State.receive_codec (s : State) (bs : List Byte) :
    (s.receive bs).codec = s.codec.feeds params bs := State.codec_setCodec _ _
@[simp] theorem State.receive_sel (s : State) (bs : List Byte) : (s.receive bs).sel = s.sel := rfl
@[simp] theorem State.receive_pending (s : State) (bs : List Byte) :
    (s.receive bs).pending = s.pending := rfl
@[simp] theorem State.receive_returned (s : State) (bs : List Byte) :
    (s.receive bs).returned = s.returned := rfl

/-- Every packet kind is the arrival of its bytes (R119). -/
theorem exec_of_packet? {i : Instr} {c : Byte} {p : List Byte} {k : Byte}
    (h : i.packet? = some (c, p, k)) (s : State) :
    exec i s = .next (s.receive (packetBytes c p k)) := by
  cases i <;> simp only [Instr.packet?, Option.some.injEq, Prod.mk.injEq, reduceCtorEq] at h <;>
    obtain ⟨rfl, rfl, rfl⟩ := h <;> rfl

/-- An instruction with a next state rewrites the named copy of the block, or returns a value. -/
theorem exec_cases {i : Instr} {s t : State} (h : exec i s = .next t) :
    (∃ c, t = s.setCodec c) ∨ (∃ r, t = s.reply r) := by
  cases i with
  | crcRd | frmCmd | frmXlen | frmValid | frmPay =>
    simp only [exec, execCrcRd, execFrmCmd, execFrmXlen, execFrmValid, execFrmPay,
      Host.Outcome.next.injEq] at h
    exact .inr ⟨_, h.symm⟩
  | serEnc c p =>
    simp only [exec, execSerEnc] at h
    split at h
    · exact .inr ⟨_, (Host.Outcome.next.inj h).symm⟩
    · cases h
  | _ => exact .inl ⟨_, (Host.Outcome.next.inj h).symm⟩

/-- The one instruction that can be refused is SER.ENC with too long a payload (R112). -/
theorem exec_refused_iff (i : Instr) (s : State) (r : Refusal) :
    exec i s = .refused r ↔
      r = .payloadTooLong ∧ ∃ c p, i = .serEnc c p ∧ params.payMax < p.length := by
  cases i with
  | serEnc c p =>
    simp only [exec, execSerEnc]
    split
    · next h => simp only [params_payMax] at h; simp; omega
    · next h => simp only [params_payMax] at h; simp [eq_comm]; omega
  | _ =>
    refine ⟨fun h => ?_, fun ⟨_, _, _, h, _⟩ => ?_⟩
    · cases h
    · cases h

/-- What one step can do: idle, reset a copy, perform the decoded instruction, or take what is no instruction (R34, R36). -/
theorem step_cases (s : State) :
    (s.take? = none ∧ step s = .next s) ∨
    (∃ t, s.take? = some (.reset, t) ∧ step s = .next (t.setCodec t.codec.hardReset)) ∨
    (∃ p t i, s.take? = some (.present p, t) ∧ decode p = .ok i ∧ step s = exec i t) ∨
    (∃ p t e, s.take? = some (.present p, t) ∧ decode p = .error e ∧
      step s = t.uninstructed p) := by
  unfold step
  match s.take? with
  | none => exact .inl ⟨rfl, rfl⟩
  | some (.reset, t) => exact .inr (.inl ⟨t, rfl, rfl⟩)
  | some (.present p, t) =>
    cases hd : decode p with
    | ok i => exact .inr (.inr (.inl ⟨p, t, i, rfl, hd, by simp only [hd]⟩))
    | error e => exact .inr (.inr (.inr ⟨p, t, e, rfl, hd, by simp only [hd]⟩))

/-- A state in which an action is taken has it first in its queue, and taking it names its copy. -/
theorem State.take?_eq_some {s t : State} {w : Stimulus} (h : s.take? = some (w, t)) :
    ∃ k rest, s.pending = { copy := k, what := w } :: rest ∧
      t = { s with pending := rest, sel := k } := by
  unfold State.take? at h
  split at h
  · cases h
  · next q rest hp =>
    simp only [Option.some.injEq, Prod.mk.injEq] at h
    obtain ⟨rfl, rfl⟩ := h
    exact ⟨q.copy, rest, hp, rfl⟩

/-! ## Instructions are local -/

/-- `s` with the named copy rewritten and values returned. -/
def State.after (s : State) (c : Codec) (rs : List Result) : State :=
  State.setCodec
    { s with returned := s.returned ++ rs.map fun r => { copy := s.sel, value := r } } c

@[simp] theorem State.after_codec (s : State) (c : Codec) (rs : List Result) :
    (s.after c rs).codec = c := by simp [State.after]

@[simp] theorem State.after_sel (s : State) (c : Codec) (rs : List Result) :
    (s.after c rs).sel = s.sel := rfl

@[simp] theorem State.after_pending (s : State) (c : Codec) (rs : List Result) :
    (s.after c rs).pending = s.pending := rfl

@[simp] theorem State.after_returned (s : State) (c : Codec) (rs : List Result) :
    (s.after c rs).returned =
      s.returned ++ rs.map fun r => { copy := s.sel, value := r } := rfl

theorem State.setCodec_eq_after (s : State) (c : Codec) : s.setCodec c = s.after c [] := by
  simp [State.after]

theorem State.reply_eq_after (s : State) (r : Result) : s.reply r = s.after s.codec [r] :=
  (State.setCodec_codec (s.reply r)).symm

/-- What a stimulus does to a copy of the block, and what it returns, as functions of that copy. -/
structure Effect where
  next : Codec → Codec
  returns : Codec → List Result
  atMostOne : ∀ c, (returns c).length ≤ 1

/-- Every instruction acts on the named copy by a function of that copy alone, or is refused in every
state (R19). -/
theorem exec_local (i : Instr) :
    (∃ e : Effect, ∀ s : State, exec i s = .next (s.after (e.next s.codec) (e.returns s.codec))) ∨
    (∃ r, ∀ s : State, exec i s = .refused r) := by
  have hc : ∀ f : Codec → Codec, (∀ s, exec i s = .next (s.setCodec (f s.codec))) →
      ∃ e : Effect, ∀ s : State, exec i s = .next (s.after (e.next s.codec) (e.returns s.codec)) :=
    fun f h => ⟨⟨f, fun _ => [], fun _ => Nat.zero_le _⟩, fun s => by
      rw [h, State.setCodec_eq_after]⟩
  have hr : ∀ f : Codec → Result, (∀ s, exec i s = .next (s.reply (f s.codec))) →
      ∃ e : Effect, ∀ s : State, exec i s = .next (s.after (e.next s.codec) (e.returns s.codec)) :=
    fun f h => ⟨⟨id, fun c => [f c], fun _ => Nat.le_refl _⟩, fun s => by
      rw [h, State.reply_eq_after]; rfl⟩
  have hp : ∀ c p k, (∀ s, exec i s = .next (s.arrive c p k)) →
      ∃ e : Effect, ∀ s : State, exec i s = .next (s.after (e.next s.codec) (e.returns s.codec)) :=
    fun c p k h => hc (fun d => d.feeds params (packetBytes c p k)) h
  cases i with
  | crcClr => exact .inl (hc (fun c => { c with crc := crcInit }) fun _ => rfl)
  | crcUpd b => exact .inl (hc (fun c => { c with crc := crc8Step c.crc b }) fun _ => rfl)
  | crcRd => exact .inl (hr (fun c => .byte (c.crc ^^^ xorOut)) fun _ => rfl)
  | frmFeed b => exact .inl (hc (fun c => c.feed params b) fun _ => rfl)
  | frmClr => exact .inl (hc Codec.empty fun _ => rfl)
  | frmCmd => exact .inl (hr (fun c => .byte c.cmd) fun _ => rfl)
  | frmXlen => exact .inl (hr (fun c => .length c.xlen) fun _ => rfl)
  | frmValid => exact .inl (hr (fun c => .bit c.valid) fun _ => rfl)
  | frmPay => exact .inl (hr (fun c => .bytes c.pay) fun _ => rfl)
  | serEnc c p =>
    by_cases hl : p.length ≤ params.payMax
    · exact .inl (hr (fun _ => .bytes (enc c p)) fun s => if_pos hl)
    · exact .inr ⟨_, fun s => if_neg hl⟩
  | pktSetbaudReq p k => exact .inl (hp codeSetbaudReq p k fun _ => rfl)
  | pktSetbaudRsp p k => exact .inl (hp codeSetbaudRsp p k fun _ => rfl)
  | pktSenddataReq k => exact .inl (hp codeSenddataReq [] k fun _ => rfl)
  | pktSenddataRsp k => exact .inl (hp codeSenddataRsp [] k fun _ => rfl)
  | pktGetverReq k => exact .inl (hp codeGetverReq [] k fun _ => rfl)
  | pktGetverRsp p k => exact .inl (hp codeGetverRsp p k fun _ => rfl)
  | pktSetdataReq p k => exact .inl (hp codeSetdataReq p k fun _ => rfl)
  | pktSetdataRsp k => exact .inl (hp codeSetdataRsp [] k fun _ => rfl)
  | pktRecvdata p k => exact .inl (hp codeRecvdata p k fun _ => rfl)
  | pktUnassigned c k => exact .inl (hp c [] k fun _ => rfl)

/-- So does every action of the host (R34). -/
theorem step_local (w : Stimulus) :
    (∃ e : Effect, ∀ (s : State) (k : Fin ninst) (rest : List Input),
      s.pending = { copy := k, what := w } :: rest →
        step s = .next (State.after { s with pending := rest, sel := k }
          (e.next s.codecs[k]) (e.returns s.codecs[k]))) ∨
    (∃ r, ∀ (s : State) (k : Fin ninst) (rest : List Input),
      s.pending = { copy := k, what := w } :: rest → step s = .refused r) := by
  cases w with
  | reset =>
    refine .inl ⟨⟨Codec.hardReset, fun _ => [], fun _ => Nat.zero_le _⟩, fun s k rest h => ?_⟩
    simp only [step, State.take?_cons s h]
    rw [State.setCodec_eq_after]
    rfl
  | present p =>
    cases hd : decode p with
    | error e =>
      cases p with
      | op w q =>
        exact .inr ⟨.reservedOp (opField w), fun s k rest h => by
          simp only [step, State.take?_cons s h, hd]; rfl⟩
      | wire bytes =>
        refine .inl ⟨⟨fun c => c.feeds params bytes, fun _ => [], fun _ => Nat.zero_le _⟩, fun s k rest h => ?_⟩
        simp only [step, State.take?_cons s h, hd, State.uninstructed, State.receive]
        rw [State.setCodec_eq_after]
        rfl
    | ok i =>
      rcases exec_local i with ⟨e, he⟩ | ⟨r, hr⟩
      · exact .inl ⟨e, fun s k rest h => by simp only [step, State.take?_cons s h, hd, he]; rfl⟩
      · exact .inr ⟨r, fun s k rest h => by simp only [step, State.take?_cons s h, hd, hr]⟩

/-! ## Several steps -/

@[simp] theorem run_zero (s : State) : run 0 s = .next s := rfl

theorem run_succ_of_next {n : Nat} {s t : State} (h : step s = .next t) :
    run (n + 1) s = run n t := by rw [run, h]

theorem run_succ_of_refused {n : Nat} {s : State} {r : Refusal} (h : step s = .refused r) :
    run (n + 1) s = .refused r := by rw [run, h]

end Sys2Proof.Machine
end

