-- ==== Sys2Proof/Tests/Slice0.lean ====
section
/-! SUPPORT. Tests of the model: ill-formed terms, decoding, one step of each instruction with the result
that spec/95_test_vectors.md gives (V1 to V60), and a witness for each statement with hypotheses. -/

namespace Sys2Proof.Tests

open Machine

set_option Elab.async false

/-! ## Helpers -/

/-- A copy of the block that has been fed these bytes after reset. -/
def fed (bs : List Byte) : Codec := Codec.fresh.feeds params bs

/-- The reset state, but for copy 0. -/
def holding (c : Codec) : State := State.reset.setCodec c

/-- The state after a step (the reset state where there is none). -/
def nextOf : Host.Outcome State Fault Refusal → State
  | .next s => s
  | .fault _ => State.reset
  | .refused _ => State.reset

/-- Whether there is a next state. -/
def isNext : Host.Outcome State Fault Refusal → Bool
  | .next _ => true
  | .fault _ => false
  | .refused _ => false

theorem eq_nextOf {o : Host.Outcome State Fault Refusal} (h : isNext o = true) :
    o = .next (nextOf o) := by
  cases o with
  | next s => rfl
  | fault r => cases h
  | refused r => cases h

/-- What a step leaves to look at in copy 0: buffered bytes, accumulator, and what has been returned. -/
def seen : Host.Outcome State Fault Refusal → Option (List Byte × Byte × List Result)
  | .next s => some (s.codecs[0].bytes, s.codecs[0].crc, s.returned.map Reply.value)
  | .fault _ => none
  | .refused _ => none

/-- One step on copy 0 with an operation word presented. -/
def stepWord (c : Codec) (w : OpWord) (p : List Byte) : Host.Outcome State Fault Refusal :=
  step ((holding c).presentFirst (.op w p))

/-- One step on copy 0 with a packet presented. -/
def stepPacket (c : Codec) (bs : List Byte) : Host.Outcome State Fault Refusal :=
  step ((holding c).presentFirst (.wire bs))

theorem ok_of_checks {P : Params} {c : Codec}
    (h : c.buf.wf ∧ (∀ x ∈ c.buf, x.1 < P.bufCap) ∧ c.len ≤ P.bufCap ∧
      (1 ≤ c.len → c.buf.read 0 = hdr0) ∧ (2 ≤ c.len → c.buf.read 1 = hdr1)) : c.Ok P :=
  ⟨h.1, h.2.1, h.2.2.1, h.2.2.2.1, h.2.2.2.2⟩

theorem inv_of_ok {s : State} (h0 : s.codecs[0].Ok params) (h1 : s.codecs[1].Ok params) : s.Inv :=
  fun k => match k with
    | 0 => h0
    | 1 => h1

/-! ## Well-formedness: one ill-formed term for each check (R50, R52, R112, R129) -/

theorem test_illFormed_payloadTooLong :
    (Instr.serEnc 0x00 (List.replicate 34 0x00)).illFormed = some .payloadTooLong := by decide +kernel
theorem test_illFormed_payloadLength :
    (Instr.pktSetbaudReq [0x00] 0x1A).illFormed = some .payloadLength := by decide +kernel
theorem test_illFormed_checksum :
    (Instr.pktSetbaudRsp [0x0E, 0x00] 0x46).illFormed = some .checksum := by decide +kernel
theorem test_illFormed_codeAssigned :
    (Instr.pktUnassigned 0x54 0x27).illFormed = some .codeAssigned := by decide +kernel

/-! ## Decoding: each row's bits, written out from spec/opcode_table.json -/

theorem test_decode_crcClr : decodeTableWord 12 0b000000000000 = some .crcClr := by decide +kernel
theorem test_decode_crcUpd : decodeTableWord 16 0b000110000001 = some (.crcUpd 0x81) := by
  decide +kernel
theorem test_decode_crcRd : decodeTableWord 12 0b001000000000 = some .crcRd := by decide +kernel
theorem test_decode_frmFeed : decodeTableWord 16 0b010000100100 = some (.frmFeed 0x24) := by
  decide +kernel
theorem test_decode_frmClr : decodeTableWord 12 0b010100000000 = some .frmClr := by decide +kernel
theorem test_decode_frmCmd : decodeTableWord 12 0b011000000000 = some .frmCmd := by decide +kernel
theorem test_decode_frmXlen : decodeTableWord 12 0b011100000000 = some .frmXlen := by decide +kernel
theorem test_decode_frmValid : decodeTableWord 12 0b100000000000 = some .frmValid := by
  decide +kernel
theorem test_decode_frmPay : decodeTableWord 12 0b100100000000 = some .frmPay := by decide +kernel
theorem test_decode_serEnc :
    decodeTableWord 12 0b110001011000 = some (.serEnc 0x58 []) ∧
    decode (.op 0b110000111001#12 [0x0E, 0x00]) = .ok (.serEnc 0x39 [0x0E, 0x00]) := by
  decide +kernel
theorem test_decode_reserved :
    decodeTableWord 12 0x300 = none ∧ decodeTableWord 12 0xA00 = none ∧
    decodeTableWord 12 0xB00 = none ∧ decodeTableWord 12 0xD00 = none ∧
    decodeTableWord 12 0xE00 = none ∧ decodeTableWord 12 0xF00 = none := by decide +kernel
/-- Row pattern `24 43 42 pp pp kk 0A 0D`. -/
theorem test_decode_pktSetbaudReq :
    decodeTableWord 64 0b0010010001000011010000100000000111111110100000010000101000001101 =
      some (.pktSetbaudReq [0x01, 0xFE] 0x81) := by decide +kernel
/-- The source's own bytes (V3). -/
theorem test_decode_pktSetbaudRsp :
    decodeTableWord 64 0x2443390E00470A0D = some (.pktSetbaudRsp [0x0E, 0x00] 0x47) ∧
    (Instr.pktSetbaudRsp [0x0E, 0x00] 0x47).wellFormed = true := by decide +kernel
theorem test_decode_pktSenddataReq :
    decodeTableWord 48 0b001001000100001101010100001001110000101000001101 =
      some (.pktSenddataReq 0x27) := by decide +kernel
theorem test_decode_pktSenddataRsp :
    decodeTableWord 48 0b001001000100001100111000001001000000101000001101 =
      some (.pktSenddataRsp 0x24) := by decide +kernel
theorem test_decode_pktGetverReq :
    decodeTableWord 48 0b001001000100001101010110001010010000101000001101 =
      some (.pktGetverReq 0x29) := by decide +kernel
theorem test_decode_pktGetverRsp :
    decodeTableWord 64 0b0010010001000011010000000000000100000000110110010000101000001101 =
      some (.pktGetverRsp [0x01, 0x00] 0xD9) := by decide +kernel
/-- V1. -/
theorem test_decode_pktSetdataReq :
    decodeTableWord 160 0x2443580008000007083132333435363738008D0A0D = none ∧
    decodeTableWord 160 0x24435800080000070831323334353637388D0A0D =
      some (.pktSetdataReq [0x00, 0x08, 0x00, 0x00, 0x07, 0x08, 0x31, 0x32, 0x33, 0x34, 0x35, 0x36,
        0x37, 0x38] 0x8D) := by decide +kernel
theorem test_decode_pktSetdataRsp :
    decodeTableWord 48 0b001001000100001100110011000101010000101000001101 =
      some (.pktSetdataRsp 0x15) := by decide +kernel
/-- The source's own bytes (V4). -/
theorem test_decode_pktRecvdata :
    decodeTableWord 160 0x2443360E0600000000DEADBEEFDEAD0000970A0D =
      some (.pktRecvdata [0x0E, 0x06, 0x00, 0x00, 0x00, 0x00, 0xDE, 0xAD, 0xBE, 0xEF, 0xDE, 0xAD,
        0x00, 0x00] 0x97) := by decide +kernel
/-- V56. -/
theorem test_decode_pktUnassigned :
    decodeTableWord 48 0b001001000100001110011001010010100000101000001101 =
      some (.pktUnassigned 0x99 0x4A) ∧
    (Instr.pktUnassigned 0x99 0x4A).wellFormed = true := by decide +kernel

/-! ## The CRC-8 generator -/

/-- V14, V15: the eight conditional shifts of one step. -/
theorem test_crc8Step_trace :
    crcShifts 3 (0x00 ^^^ 0x24) = 0x27 ∧ crc8Step 0x00 0x24 = 0xFC ∧ crc8Step 0xFC 0x43 = 0x34 := by
  decide +kernel
/-- V10, V12, V16, V17. -/
theorem test_crc8_vectors :
    crc8 [] = 0x00 ∧ crc8 [0x80] = 0x89 ∧
    crc8 [0x31, 0x32, 0x33, 0x34, 0x35, 0x36, 0x37, 0x38, 0x39] = 0xF4 ∧
    crc8 [0x24, 0x43, 0x54, 0x27] = 0x00 := by decide +kernel
theorem test_crcClr :
    seen (stepWord { fed [0x24] with crc := 0xFC } 0x000 []) = some ([0x24], 0x00, []) := by
  decide +kernel
/-- V15, V19c. -/
theorem test_crcUpd :
    seen (stepWord { fed [0x24] with crc := 0xFC } 0x143 []) = some ([0x24], 0x34, []) := by
  decide +kernel
/-- V19b. -/
theorem test_crcRd :
    seen (stepWord { fed [0x24] with crc := 0x34 } 0x200 []) =
      some ([0x24], 0x34, [.byte 0x34]) := by decide +kernel

/-! ## The framer -/

/-- V22: the second 0x24 is rejected and empties the buffer. -/
theorem test_frmFeed_headerRejected :
    seen (stepWord (fed [0x24]) 0x424 []) = some ([], 0x00, []) := by decide +kernel
/-- V23: with `HDR_MISMATCH_CLEARS` = false it does not. -/
theorem test_feed_headerKept :
    let P : Params := { maxLen := 39, hdrMismatchClears := false }
    ((Codec.fresh.feeds P [0x24]).feed P 0x24).len = 1 := by decide +kernel
/-- V31: at 39 bytes appended, at 40 discarded and the byte taken as a first header byte. -/
theorem test_frmFeed_overrun :
    let dead := [0x24, 0x43, 0x54, 0x00, 0x0A, 0x0D] ++ List.replicate 33 0x11
    seen (stepWord (fed dead) 0x422 []) = some (dead ++ [0x22], 0x00, []) ∧
    seen (stepWord (fed (dead ++ [0x22])) 0x424 []) = some ([0x24], 0x00, []) := by decide +kernel
/-- V25: nothing is buffered, `crc` stands. -/
theorem test_frmClr :
    seen (stepWord { fed [0x24, 0x43, 0x33, 0x15, 0x0A, 0x0D] with crc := 0x97 } 0x500 []) =
      some ([], 0x97, []) := by decide +kernel
/-- V36, V37. -/
theorem test_frmCmd :
    seen (stepWord (fed [0x24, 0x43]) 0x600 []) = some ([0x24, 0x43], 0x00, [.byte 0x00]) ∧
    seen (stepWord (fed [0x24, 0x43, 0x58]) 0x600 []) =
      some ([0x24, 0x43, 0x58], 0x00, [.byte 0x58]) := by decide +kernel
/-- V36, V37. -/
theorem test_frmXlen :
    seen (stepWord (fed [0x24, 0x43]) 0x700 []) = some ([0x24, 0x43], 0x00, [.length 6]) ∧
    seen (stepWord (fed [0x24, 0x43, 0x58]) 0x700 []) =
      some ([0x24, 0x43, 0x58], 0x00, [.length 20]) := by decide +kernel
/-- V3, the source's own bytes. -/
theorem test_frmValid :
    seen (stepWord (fed [0x24, 0x43, 0x39, 0x0E, 0x00, 0x47, 0x0A, 0x0D]) 0x800 []) =
      some ([0x24, 0x43, 0x39, 0x0E, 0x00, 0x47, 0x0A, 0x0D], 0x00, [.bit true]) := by decide +kernel
/-- V29: a wrong stop marker, and the two stop bytes swapped. -/
theorem test_frmValid_stop :
    (fed [0x24, 0x43, 0x54, 0x27, 0x0A, 0x0A]).valid = false ∧
    (fed [0x24, 0x43, 0x54, 0x27, 0x0D, 0x0A]).valid = false := by decide +kernel
/-- V3. -/
theorem test_frmPay :
    seen (stepWord (fed [0x24, 0x43, 0x39, 0x0E, 0x00, 0x47, 0x0A, 0x0D]) 0x900 []) =
      some ([0x24, 0x43, 0x39, 0x0E, 0x00, 0x47, 0x0A, 0x0D], 0x00, [.bytes [0x0E, 0x00]]) := by
  decide +kernel
/-- V39: the payload of a failed packet is withheld. -/
theorem test_frmPay_failed :
    (fed [0x24, 0x43, 0x39, 0x0E, 0x00, 0x46, 0x0A, 0x0D]).pay = [] := by decide +kernel

/-! ## The serializer -/

/-- V43: a payload length the command does not dictate is serialized as it is. -/
theorem test_serEnc :
    seen (stepWord (fed [0x24]) 0xC54 [0x01]) =
      some ([0x24], 0x00, [.bytes [0x24, 0x43, 0x54, 0x01, 0xF2, 0x0A, 0x0D]]) := by decide +kernel
/-- V45: 33 payload bytes are the most. -/
theorem test_serEnc_longest :
    (enc 0x00 ((List.range 33).map (BitVec.ofNat 8))).length = 39 ∧
    (enc 0x00 ((List.range 33).map (BitVec.ofNat 8))).drop 36 = [0x48, 0x0A, 0x0D] ∧
    isNext (stepWord (fed []) 0xC00 (List.replicate 33 0x00)) = true ∧
    isNext (stepWord (fed []) 0xC00 (List.replicate 34 0x00)) = false := by decide +kernel

/-! ## The packet kinds: V47 to V57, fed from `len` = 0 -/

/-- What a copy that has received a packet shows: is it valid, its command and its payload. -/
def shown (o : Host.Outcome State Fault Refusal) : Bool × Byte × List Byte :=
  ((nextOf o).codec.valid, (nextOf o).codec.cmd, (nextOf o).codec.pay)

theorem test_pktSetbaudReq :
    shown (stepPacket (fed []) [0x24, 0x43, 0x42, 0x00, 0x00, 0x1A, 0x0A, 0x0D]) =
      (true, 0x42, [0x00, 0x00]) := by decide +kernel
theorem test_pktSetbaudRsp :
    shown (stepPacket (fed []) [0x24, 0x43, 0x39, 0x00, 0x00, 0x91, 0x0A, 0x0D]) =
      (true, 0x39, [0x00, 0x00]) := by decide +kernel
theorem test_pktSenddataReq :
    shown (stepPacket (fed []) [0x24, 0x43, 0x54, 0x27, 0x0A, 0x0D]) = (true, 0x54, []) := by
  decide +kernel
theorem test_pktSenddataRsp :
    shown (stepPacket (fed []) [0x24, 0x43, 0x38, 0x24, 0x0A, 0x0D]) = (true, 0x38, []) := by
  decide +kernel
theorem test_pktGetverReq :
    shown (stepPacket (fed []) [0x24, 0x43, 0x56, 0x29, 0x0A, 0x0D]) = (true, 0x56, []) := by
  decide +kernel
theorem test_pktGetverRsp :
    shown (stepPacket (fed []) [0x24, 0x43, 0x40, 0x00, 0x00, 0xCC, 0x0A, 0x0D]) =
      (true, 0x40, [0x00, 0x00]) := by decide +kernel
/-- V32: header and stop values inside a payload are data. -/
theorem test_pktSetdataReq :
    shown (stepPacket (fed []) [0x24, 0x43, 0x58, 0x24, 0x43, 0x0A, 0x0D, 0x24, 0x43, 0x0A, 0x0D,
        0x24, 0x43, 0x0A, 0x0D, 0x24, 0x43, 0xE5, 0x0A, 0x0D]) =
      (true, 0x58, [0x24, 0x43, 0x0A, 0x0D, 0x24, 0x43, 0x0A, 0x0D, 0x24, 0x43, 0x0A, 0x0D,
        0x24, 0x43]) := by decide +kernel
theorem test_pktSetdataRsp :
    shown (stepPacket (fed []) [0x24, 0x43, 0x33, 0x15, 0x0A, 0x0D]) = (true, 0x33, []) := by
  decide +kernel
/-- V4. -/
theorem test_pktRecvdata :
    shown (stepPacket (fed []) [0x24, 0x43, 0x36, 0x0E, 0x06, 0x00, 0x00, 0x00, 0x00, 0xDE, 0xAD,
        0xBE, 0xEF, 0xDE, 0xAD, 0x00, 0x00, 0x97, 0x0A, 0x0D]) =
      (true, 0x36, [0x0E, 0x06, 0x00, 0x00, 0x00, 0x00, 0xDE, 0xAD, 0xBE, 0xEF, 0xDE, 0xAD, 0x00,
        0x00]) := by decide +kernel
theorem test_pktUnassigned :
    shown (stepPacket (fed []) [0x24, 0x43, 0xFF, 0x7F, 0x0A, 0x0D]) = (true, 0xFF, []) := by
  decide +kernel
/-- V30: a packet that arrives on a truncated one is glued on, and lost. -/
theorem test_packetGlued :
    seen (stepPacket (fed [0x24, 0x43, 0x39, 0x0E]) [0x24, 0x43, 0x56, 0x29, 0x0A, 0x0D]) =
      some ([0x24, 0x43, 0x39, 0x0E, 0x24, 0x43, 0x56, 0x29, 0x0A, 0x0D], 0x00, []) := by
  decide +kernel

/-- V28, and a stretch of noise: bytes that are no packet are fed all the same. -/
theorem test_bytesThatAreNoPacket :
    seen (stepPacket (fed []) [0x24, 0x43, 0x58, 0x0A, 0x0D]) =
      some ([0x24, 0x43, 0x58, 0x0A, 0x0D], 0x00, []) ∧
    seen (stepPacket (fed []) [0x0A, 0x0D, 0x55]) = some ([], 0x00, []) := by decide +kernel

/-! ## The host's side and the rows as the host of this model places them -/

/-- V58, and V60 read back. -/
theorem test_dataPacket :
    dataPacket { extended := false, id := 0x123, length := 3, data := [0xA1, 0xA2, 0xA3] } =
      some [0x24, 0x43, 0x58, 0x00, 0x03, 0x23, 0x01, 0x00, 0x00, 0xA1, 0xA2, 0xA3, 0x00, 0x00, 0x00,
        0x00, 0x00, 0x06, 0x0A, 0x0D] ∧
    readData [0x00, 0x82, 0xFF, 0xFF, 0xFF, 0x1F, 0xCA, 0xFE, 0x00, 0x00, 0x00, 0x00, 0x00, 0x00] =
      some { extended := true, id := 0x1FFFFFFF, length := 2, data := [0xCA, 0xFE] } := by
  decide +kernel
/-- V58: a CAN frame goes to the serial sink as a packet, and neither framer is fed. -/
theorem test_bridge_canFrame :
    let g : Bridge := { codecs := #v[fed [0x24], fed []], canSink := [], serialSink := [] }
    g.handle (.canFrame { extended := false, id := 0x123, length := 3, data := [0xA1, 0xA2, 0xA3] }) =
      some { g with serialSink := [[0x24, 0x43, 0x58, 0x00, 0x03, 0x23, 0x01, 0x00, 0x00, 0xA1, 0xA2,
        0xA3, 0x00, 0x00, 0x00, 0x00, 0x00, 0x06, 0x0A, 0x0D]] } := by decide +kernel
/-- The words of rows placed where a step fetches run as the first instruction after reset. -/
theorem test_withFetchWord :
    seen (step (State.reset.withFetchWord 16 0x424)) = some ([0x24], 0x00, []) ∧
    seen (step (State.reset.withFetchWord 48 0x244354270A0D)) =
      some ([0x24, 0x43, 0x54, 0x27, 0x0A, 0x0D], 0x00, []) ∧
    isNext (step (State.reset.withFetchWord 12 0x300)) = false := by decide +kernel
/-- P5: the reset stimulus clears both registers. -/
theorem test_reset :
    seen (step { holding { fed [0x24, 0x43] with crc := 0xF4 } with
      pending := [{ copy := 0, what := .reset }] }) = some ([], 0x00, []) := by decide +kernel

/-! ## Witnesses: concrete states and operands that meet the hypotheses of the statements -/

/-- V3. -/
def good8 : List Byte := [0x24, 0x43, 0x39, 0x0E, 0x00, 0x47, 0x0A, 0x0D]
/-- V40. -/
def good6 : List Byte := [0x24, 0x43, 0x54, 0x27, 0x0A, 0x0D]
/-- V31: a dead buffer of `6 + n` bytes. -/
def dead (n : Nat) : List Byte := [0x24, 0x43, 0x54, 0x00, 0x0A, 0x0D] ++ List.replicate n 0x11

theorem witness_DecodeInvertsEncode :
    (Instr.serEnc 0x39 (List.replicate 33 0x00)).wellFormed = true ∧
    (Instr.pktSetbaudRsp [0x0E, 0x00] 0x47).wellFormed = true ∧
    (Instr.pktUnassigned 0x00 0x8C).wellFormed = true := by decide +kernel
theorem witness_EncodeInvertsDecode :
    decode (.wire good8) = .ok (.pktSetbaudRsp [0x0E, 0x00] 0x47) ∧
    decode (.op 0x1FF [0x01]) = .ok (.crcUpd 0xFF) ∧ decode (.op 0x400 []) = .ok (.frmFeed 0x00) ∧
    decode (.op 0xC54 [0x01]) = .ok (.serEnc 0x54 [0x01]) ∧
    decode (.op 0x2AB [0x01]) = .ok .crcRd := by decide +kernel
theorem witness_PacketsAreSerializerOutputs :
    (decode (.wire good6) = .ok (.pktSenddataReq 0x27) ∧
      (Instr.pktSenddataReq 0x27).wellFormed = true) ∧ good6 = enc 0x54 [] ∧ ext 0x54 = 0 := by
  decide +kernel
theorem witness_ReservedOperationsRefused :
    opField 0x3AA ∈ [0x3, 0xA, 0xB, 0xD, 0xE, 0xF] ∧ opField 0xFFF ∈ [0x3, 0xA, 0xB, 0xD, 0xE, 0xF] ∧
    opField 0x2FF ∉ [0x3, 0xA, 0xB, 0xD, 0xE, 0xF] ∧ opField 0xCFF ∉ [0x3, 0xA, 0xB, 0xD, 0xE, 0xF] ∧
    opField 0x2FF ≠ 0xC := by
  decide +kernel
theorem witness_StepRunsDecodedInstruction :
    ((holding (fed [])).presentFirst (.wire good6)).pending =
      { copy := 0, what := .present (.wire good6) } :: [] ∧
    decode (.wire good6) = .ok (.pktSenddataReq 0x27) ∧ State.reset.pending = [] := by
  decide +kernel
theorem witness_FetchedWordRuns :
    decodeTableWord 160 0x2443360E0600000000DEADBEEFDEAD0000970A0D ≠ none ∧
    decodeTableWord 12 0x4FF = some (.frmFeed 0xFF) := by decide +kernel
theorem witness_NothingStopsTheBlock :
    (Instr.serEnc 0x00 (List.replicate 33 0xFF)).wellFormed = true ∧
    isNext (stepWord (fed []) 0x300 []) = false ∧
    isNext (stepWord (fed []) 0xC00 (List.replicate 34 0x00)) = false := by decide +kernel
theorem witness_RunFoldsOperations :
    (∀ i ∈ [Instr.frmFeed 0x24, .crcRd, .serEnc 0x54 []], i.wellFormed = true) ∧
    State.reset.pending = [] := by decide +kernel
theorem witness_HardwareReset :
    ({ holding { fed (dead 0) with crc := 0xF4 } with
      pending := [{ copy := 0, what := .reset }] } : State).pending =
      { copy := 0, what := .reset } :: [] := by decide +kernel
/-- V19: bytewise xor of two sequences of one length. -/
theorem witness_CrcLaws :
    [0x12#8, 0x34#8, 0x56#8].length = [0xAB#8, 0xCD#8, 0xEF#8].length ∧
    List.zipWith (· ^^^ ·) [0x12#8, 0x34#8, 0x56#8] [0xAB#8, 0xCD#8, 0xEF#8] = [0xB9, 0xF9, 0xB9] := by
  decide +kernel
/-- V34, at the first and at the last position. -/
theorem witness_OneByteErrorDetected :
    (0x47#8 ≠ 0x46#8) ∧
    (let c := fed good8; let d : Codec := { c with buf := c.buf.write 0 0x25 }
      c.valid = true ∧ d.len = c.len ∧ 0 < c.len ∧ d.buf.read 0 ≠ c.buf.read 0 ∧
      ∀ x, x < c.len → x ≠ 0 → d.buf.read x = c.buf.read x) ∧
    (let c := fed good8; let d : Codec := { c with buf := c.buf.write 7 0x0A }
      c.valid = true ∧ d.len = c.len ∧ 7 < c.len ∧ d.buf.read 7 ≠ c.buf.read 7 ∧
      ∀ x, x < c.len → x ≠ 7 → d.buf.read x = c.buf.read x) := by decide +kernel
theorem witness_AccumulatorApart :
    ∀ i ∈ [Instr.crcClr, .crcUpd 0x43, .crcRd, .frmFeed 0x24, .frmValid, .serEnc 0x54 []],
      ∃ t, exec i (holding { fed good8 with crc := 0xFC }) = .next t := fun i hi =>
  ⟨_, eq_nextOf ((show ∀ i ∈ [Instr.crcClr, .crcUpd 0x43, .crcRd, .frmFeed 0x24, .frmValid,
    .serEnc 0x54 []], isNext (exec i (holding { fed good8 with crc := 0xFC })) = true by
      decide +kernel) i hi)⟩
/-- A held packet; a byte the window rejects; one it takes; one appended at the last index. -/
theorem witness_FeedStoresOneCell :
    (let c := (fed good8).discard params; (fed good8).buf.wf ∧ c.valid = true) ∧
    (let c := (fed [0x24]).discard params; c.len < 2 ∧ (0x24 : Byte) ≠ hdr c.len) ∧
    (let c := (fed [0x24]).discard params; c.valid = false ∧ (c.len < 2 → 0x43 = hdr c.len)) ∧
    (let c := (fed (dead 33)).discard params;
      c.valid = false ∧ c.len = 39 ∧ (c.len < 2 → 0x43 = hdr c.len)) ∧
    isNext (exec (.frmFeed 0x43) (holding (fed (dead 33)))) = true := by decide +kernel
theorem witness_OverrunDiscards :
    (holding (fed (dead 34))).codec.buf.wf ∧ 39 < (holding (fed (dead 34))).codec.len ∧
    (holding (fed (dead 33))).codec.buf.wf ∧ (holding (fed (dead 33))).codec.len = 39 := by
  decide +kernel
theorem witness_CompletedPacketHeld :
    (holding (fed good8)).codec.valid = true ∧
    Instr.pktSenddataReq 0x27 ≠ .frmClr ∧
    isNext (exec (.pktSenddataReq 0x27) (holding (fed good8))) = true := by decide +kernel
theorem witness_HeaderWindow :
    ({ maxLen := 20, hdrMismatchClears := false } : Params).Legal ∧ params.Legal ∧
    (fed []).len = 0 ∧ (fed [0x24]).len = 1 := by decide +kernel
/-- At 2 bytes, where the byte is the command, and at 39. -/
theorem witness_AppendStoresByte :
    (∀ c ∈ [fed [0x24, 0x43], fed (dead 33)],
      (holding c).codec.buf.wf ∧ 2 ≤ (holding c).codec.len ∧ (holding c).codec.len ≤ 39 ∧
      (holding c).codec.valid = false) ∧
    (holding (fed [0x24, 0x43])).codec.len = 2 := by decide +kernel
theorem witness_FailedPacketNeverValidates :
    params.Legal ∧ (fed (dead 0)).buf.wf ∧ (fed (dead 0)).xlen ≤ (fed (dead 0)).len ∧
    (fed (dead 0)).valid = false ∧
    (fed (dead 0)).len + (List.replicate 34 (0x11 : Byte)).length ≤ params.maxLen + 1 ∧
    ((fed (dead 0)).feeds params (List.replicate 34 0x11)).len = params.maxLen + 1 := by
  decide +kernel
theorem witness_FrmClrEmpties : (holding (fed (dead 34))).codec.buf.wf := by decide +kernel
/-- A good state in each of the seven phases, at both ends of a range where a phase is a range. -/
theorem witness_PhaseTable :
    (params.Legal ∧ params.hdrMismatchClears = true) ∧
    ∀ x ∈ [([], Phase.hunt0), ([0x24], .hunt1), ([0x24, 0x43], .cmd), ([0x24, 0x43, 0x39], .body),
        (good8.take 7, .body), (good8, .done), (good6, .done), (dead 0, .dead), (dead 33, .dead),
        (dead 34, .over)],
      (fed x.1).Ok params ∧ (fed x.1).phase params = x.2 := by
  refine ⟨by decide +kernel, fun x hx => ?_⟩
  have h : ∀ x ∈ [([], Phase.hunt0), ([0x24], .hunt1), ([0x24, 0x43], .cmd), ([0x24, 0x43, 0x39], .body),
      (good8.take 7, .body), (good8, .done), (good6, .done), (dead 0, .dead), (dead 33, .dead),
      (dead 34, .over)],
      ((fed x.1).buf.wf ∧ (∀ y ∈ (fed x.1).buf, y.1 < params.bufCap) ∧
        (fed x.1).len ≤ params.bufCap ∧ (1 ≤ (fed x.1).len → (fed x.1).buf.read 0 = hdr0) ∧
        (2 ≤ (fed x.1).len → (fed x.1).buf.read 1 = hdr1)) ∧ (fed x.1).phase params = x.2 := by
    decide +kernel
  exact ⟨ok_of_checks (h x hx).1, (h x hx).2⟩
/-- On cells that an earlier packet has left behind, and at the least `MAXLEN`. -/
theorem witness_PacketRoundTrip :
    ({ maxLen := 20, hdrMismatchClears := true } : Params).Legal ∧ (fed (dead 5)).empty.buf.wf ∧
    (fed (dead 5)).empty.len = 0 ∧ (List.replicate 14 (0x24 : Byte)).length = ext 0x58 ∧
    19 < 6 + (List.replicate 14 (0x24 : Byte)).length ∧ ([] : List Byte).length = ext 0x00 := by
  decide +kernel
/-- V9, V21: noise, one 0x24 in it. -/
theorem witness_GarbageThenPacketReceived :
    params.Legal ∧ params.hdrMismatchClears = true ∧ Codec.fresh.buf.wf ∧ Codec.fresh.len = 0 ∧
    ¬ ([0x24, 0x43] : List Byte) <:+: [0x0A, 0x24, 0x24, 0x0D, 0x43] ∧
    ([0x0A, 0x24, 0x24, 0x0D, 0x43] : List Byte).getLast? ≠ some 0x24 ∧
    ([] : List Byte).length = ext 0x33 := by decide +kernel
/-- Two states that differ in `crc` and in a cell past `len`. -/
theorem witness_QueriesArePure :
    let s := holding (fed good8)
    let t := holding { fed good8 with crc := 0xFC, buf := (fed good8).buf.write 8 0x55 }
    t ≠ s ∧ t.codec.len = s.codec.len ∧
    ∀ a, a < s.codec.len → t.codec.buf.read a = s.codec.buf.read a := by decide +kernel
theorem witness_FrmXlenReturns :
    (holding (fed [0x24, 0x43])).codec.len ≤ 2 ∧ (holding (fed good8)).codec.cmd = 0x39 := by
  decide +kernel
theorem witness_FrmPayReturns : (holding (fed good8)).codec.valid = true := by decide +kernel
theorem witness_ValidIffSerializerOutput :
    (fed good8).Ok params ∧ (fed good8).valid = true ∧ (fed (dead 2)).Ok params ∧
    (fed (dead 2)).valid = false :=
  ⟨ok_of_checks (by decide +kernel), by decide +kernel, ok_of_checks (by decide +kernel),
    by decide +kernel⟩
theorem witness_ExtensionTable : ∀ c ∈ [(0x00 : Byte), 0x54, 0xFF],
    c ∉ [(0x42 : Byte), 0x39, 0x40, 0x58, 0x36] := by decide +kernel
theorem witness_SerEncReturnsPacket : (List.replicate 33 (0xFF : Byte)).length ≤ 33 ∧
    ([] : List Byte).length ≤ 33 := by decide +kernel
theorem witness_SerEncRefusesLongPayload : (List.replicate 33 (0xFF : Byte)).length ≤ 33 ∧
    33 < (List.replicate 34 (0xFF : Byte)).length := by decide +kernel
theorem witness_PacketFieldMap : 13 < (List.replicate 14 (0x0A : Byte)).length := by decide +kernel
theorem witness_SerializerLaws :
    enc 0x39 [0x0E, 0x00] = good8 ∧ (fed (dead 5)).empty.buf.wf ∧
    (fed (dead 5)).empty.phase params = .hunt0 ∧ ([0x0E, 0x00] : List Byte).length = ext 0x39 := by
  decide +kernel
theorem witness_LoopReturnsCommandAndPayload :
    ([0x0E, 0x00] : List Byte).length = ext 0x39 ∧ (holding (fed good6).empty).codec.buf.wf ∧
    (holding (fed good6).empty).codec.len = 0 := by decide +kernel
theorem witness_PacketIsItsBytesFed :
    (Instr.pktGetverRsp [0x01, 0x00] 0xD9).packet? = some (0x40, [0x01, 0x00], 0xD9) ∧
    (Instr.pktUnassigned 0x99 0x00).packet? = some (0x99, [], 0x00) := by decide +kernel
/-- V49 to V51, V54, V56. -/
theorem witness_SixBytePacketsReceived :
    (holding (fed good8).empty).codec.buf.wf ∧ (holding (fed good8).empty).codec.len = 0 ∧
    0x27 = crc8 [0x24, 0x43, 0x54] ∧ 0x24 = crc8 [0x24, 0x43, 0x38] ∧
    0x29 = crc8 [0x24, 0x43, 0x56] ∧ 0x15 = crc8 [0x24, 0x43, 0x33] ∧
    assigned 0xFF = false ∧ 0x7F = crc8 [0x24, 0x43, 0xFF] := by decide +kernel
/-- V47, V3, V2. -/
theorem witness_EightBytePacketsReceived :
    (holding (fed good6).empty).codec.buf.wf ∧ (holding (fed good6).empty).codec.len = 0 ∧
    0x1A = crc8 [0x24, 0x43, 0x42, 0x00, 0x00] ∧ 0x47 = crc8 [0x24, 0x43, 0x39, 0x0E, 0x00] ∧
    0xD9 = crc8 [0x24, 0x43, 0x40, 0x01, 0x00] := by decide +kernel
/-- V53, V55. -/
theorem witness_TwentyBytePacketsReceived :
    (holding (fed good6).empty).codec.buf.wf ∧ (holding (fed good6).empty).codec.len = 0 ∧
    (List.replicate 14 (0x00 : Byte)).length = 14 ∧
    0x28 = crc8 ([0x24, 0x43, 0x58] ++ List.replicate 14 0x00) ∧
    0x6D = crc8 ([0x24, 0x43, 0x36] ++ List.replicate 14 0x00) := by decide +kernel
/-- V26: 0x46 where the checksum is 0x47. -/
theorem witness_WrongChecksumIsDead :
    (Instr.pktSetbaudRsp [0x0E, 0x00] 0x46).packet? = some (0x39, [0x0E, 0x00], 0x46) ∧
    (Instr.pktSetbaudRsp [0x0E, 0x00] 0x46).illFormed = some .checksum ∧
    State.reset.codec.buf.wf ∧ State.reset.codec.len = 0 := by decide +kernel
/-- A reachable state that holds a completed packet. -/
theorem witness_ReachableInvariants : ∃ s : State, Reachable s ∧ s.codecs[0].valid = true :=
  ⟨_, .step _ _ (.start [{ copy := 0, what := .present (.wire good8) }])
    (eq_nextOf (by decide +kernel)), by decide +kernel⟩
/-- From a buffer of `MAXLEN + 1` bytes. -/
theorem witness_StepKeepsInvariant : ∃ s t : State, s.Inv ∧ s.codec.len = 40 ∧ step s = .next t :=
  ⟨(holding (fed (dead 34))).presentFirst (.op 0x424 []), _,
    inv_of_ok (ok_of_checks (by decide +kernel)) (ok_of_checks (by decide +kernel)),
    by decide +kernel, eq_nextOf (by decide +kernel)⟩
/-- One case of each way in which `len` moves. -/
theorem witness_LengthMoves :
    (Instr.frmClr.packet? = none ∧ (Instr.frmFeed 0x24).packet? = none) ∧
    (nextOf (exec .frmClr (holding (fed good6)))).codec.len = 0 ∧
    (nextOf (exec (.frmFeed 0x24) (holding (fed (dead 33))))).codec.len = 40 ∧
    (nextOf (exec (.frmFeed 0x24) (holding (fed [0x24])))).codec.len = 0 ∧
    (nextOf (exec (.frmFeed 0x24) (holding (fed (dead 34))))).codec.len = 1 ∧
    (nextOf (exec (.frmFeed 0x00) (holding (fed (dead 34))))).codec.len = 0 := by decide +kernel
theorem witness_BufferAppendOnly :
    (Instr.frmFeed 0x11).packet? = none ∧
    (holding (fed (dead 33))).codec.len ≤
      (nextOf (exec (.frmFeed 0x11) (holding (fed (dead 33))))).codec.len ∧
    isNext (exec (.frmFeed 0x11) (holding (fed (dead 33)))) = true := by decide +kernel
/-- Two states that differ in a cell left behind by a cleared packet; FRM.FEED is presented. -/
theorem witness_StaleCellsUnobservable : ∃ s t : State, s.Inv ∧ t.Inv ∧ s.Alike t ∧ s ≠ t :=
  ⟨(holding (fed [])).presentFirst (.op 0x424 []),
    (holding (fed good8).empty).presentFirst (.op 0x424 []),
    inv_of_ok (ok_of_checks (by decide +kernel)) (ok_of_checks (by decide +kernel)),
    inv_of_ok (ok_of_checks (by decide +kernel)) (ok_of_checks (by decide +kernel)),
    ⟨rfl, rfl, rfl, fun k => match k with
      | 0 => ⟨by decide +kernel, by decide +kernel, by decide +kernel⟩
      | 1 => ⟨by decide +kernel, by decide +kernel, by decide +kernel⟩⟩, by decide +kernel⟩
/-- A second state with another copy 1 and an earlier result. -/
theorem witness_CopiesShareNothing :
    let s := holding (fed good8)
    let u : State :=
      { codecs := #v[fed good8, fed (dead 3)], sel := 0, pending := [],
        returned := [{ copy := 1, value := .bit true }] }
    isNext (exec .frmPay s) = true ∧ u.sel = s.sel ∧ u.codec = s.codec ∧ u ≠ s := by decide +kernel
theorem witness_DifferentCopiesCommute :
    let q : Input := { copy := 0, what := .present (.wire good8) }
    let r : Input := { copy := 1, what := .present (.op 0x800 []) }
    q.copy ≠ r.copy ∧ isNext (run 2 { State.reset with pending := [q, r] }) = true := by
  decide +kernel
theorem witness_ResultsAreSnapshots :
    isNext (stepWord (fed good8) 0x900 []) = true := by decide +kernel
/-- At lengths 0 and 8 (V59, V5), and with more data bytes than the length. -/
theorem witness_DataPayloadInverts :
    ∀ f ∈ [({ extended := false, id := 0x7FF, length := 0, data := [] } : CanFrame),
        { extended := true, id := 0xAABBCCDD, length := 8,
          data := [0x11, 0x22, 0x33, 0x44, 0x55, 0x66, 0x77, 0x88] },
        { extended := true, id := 0x1FFFFFFF, length := 2, data := [0xCA, 0xFE, 0x99] }],
      f.length ≤ 8 ∧ f.length ≤ f.data.length := by decide +kernel
/-- The last byte of a set-data response, of a receive-data packet (V4), and a byte of noise. -/
theorem witness_BridgeNeverFeedsHeldPacket :
    bridgeByte 0x0D (holding (fed [0x24, 0x43, 0x33, 0x15, 0x0A])).codec =
      some ((fed [0x24, 0x43, 0x33, 0x15, 0x0A, 0x0D]).empty,
        { toCan := none, toSerial := some good6 }) ∧
    bridgeByte 0x0D (holding (fed [0x24, 0x43, 0x36, 0x0E, 0x06, 0x00, 0x00, 0x00, 0x00, 0xDE, 0xAD,
        0xBE, 0xEF, 0xDE, 0xAD, 0x00, 0x00, 0x97, 0x0A])).codec ≠ none ∧
    bridgeByte 0x55 (holding (fed [])).codec = some (fed [], { toCan := none, toSerial := none }) := by
  decide +kernel
/-- An event of each direction that the Bridge handles, in a state whose copies are the Bridge's. -/
theorem witness_BridgeNeverFeedsHeldPacket_events :
    let g : Bridge :=
      { codecs := (holding (fed [0x24, 0x43, 0x33, 0x15, 0x0A])).codecs, canSink := [], serialSink := [] }
    (g.handle (.serialByte 0x0D)).map Bridge.serialSink = some [good6] ∧
    g.handle (.canFrame { extended := false, id := 0x7FF, length := 0, data := [] }) ≠ none ∧
    (holding (fed [0x24, 0x43, 0x33, 0x15, 0x0A])).codecs = g.codecs ∧
    (holding (fed [0x24, 0x43, 0x33, 0x15, 0x0A])).pending = [] := by decide +kernel
/-- V4, whose reserved byte is not 0x00; a length of 8 and one of 9; a built payload (V60); another packet. -/
theorem witness_BridgeDelivers :
    Codec.fresh.buf.wf ∧ Codec.fresh.len = 0 ∧
    ([0xDE, 0xAD, 0xBE, 0xEF, 0xDE, 0xAD, 0x00, 0x00] : List Byte).length = 8 ∧
    (0x06 &&& 0x7F : Byte).toNat = 6 ∧ (0x88 &&& 0x7F : Byte).toNat ≤ 8 ∧
    ¬ (0x09 &&& 0x7F : Byte).toNat ≤ 8 ∧
    dataPayload { extended := true, id := 0x1FFFFFFF, length := 2, data := [0xCA, 0xFE] } =
      some [0x00, 0x82, 0xFF, 0xFF, 0xFF, 0x1F, 0xCA, 0xFE, 0x00, 0x00, 0x00, 0x00, 0x00, 0x00] ∧
    (0x54 : Byte) ≠ 0x36 ∧ (0x54 : Byte) ≠ 0x33 ∧ ([] : List Byte).length = ext 0x54 := by
  decide +kernel
/-- V4, V5: what the accessors read, with the identifier's bytes in their order. -/
theorem test_readData_order :
    readData [0x0E, 0x06, 0x00, 0x00, 0x00, 0x00, 0xDE, 0xAD, 0xBE, 0xEF, 0xDE, 0xAD, 0x00, 0x00] =
      some { extended := false, id := 0x00000000, length := 6,
             data := [0xDE, 0xAD, 0xBE, 0xEF, 0xDE, 0xAD] } ∧
    (0xAA#8 ++ 0xBB#8 ++ 0xCC#8 ++ 0xDD#8 : BitVec 32) = 0xAABBCCDD := by decide +kernel
theorem witness_BaudPacketBuilt : ∃ bs, baudPacket 1000000 = some bs := ⟨_, rfl⟩

end Sys2Proof.Tests
end

/-! ## What holds of one copy of the block: the invariant and the stale cells -/

namespace Sys2Proof.Machine

section Codec
variable {P : Params} {b : Byte} {c d : Codec}

/-- A copy that keeps the cells of a good one and holds no more of them is good. -/
theorem Codec.Ok.shrink (h : c.Ok P) (hb : d.buf = c.buf) (hl : d.len ≤ c.len) : d.Ok P where
  canonical := hb ▸ h.canonical
  inside := hb ▸ h.inside
  len_le := hl.trans h.len_le
  header0 h1 := hb ▸ h.header0 (h1.trans hl)
  header1 h2 := hb ▸ h.header1 (h2.trans hl)

/-- Appending below the overrun threshold keeps a copy good, if the header window lets the byte in. -/
theorem Codec.Ok.append (h : c.Ok P) (hl : c.len ≤ P.maxLen) (hb : c.len < 2 → b = hdr c.len) :
    (c.append b).Ok P where
  canonical := Codec.append_wf b h.canonical
  inside x hx := by
    rcases Memory.mem_write hx with hx | ⟨rfl, _⟩
    · exact h.inside x hx
    · exact Nat.lt_succ_of_le hl
  len_le := Nat.succ_le_succ hl
  header0 _ := by
    by_cases h0 : c.len = 0
    · have hw := Codec.append_read_len b h.canonical
      rw [h0] at hw
      rw [hw, hb (by omega), h0]; rfl
    · rw [Codec.append_read_of_ne _ _ (Ne.symm h0)]
      exact h.header0 (by omega)
  header1 h2 := by
    rw [Codec.append_len] at h2
    by_cases h1 : c.len = 1
    · have hw := Codec.append_read_len b h.canonical
      rw [h1] at hw
      rw [hw, hb (by omega), h1]; rfl
    · rw [Codec.append_read_of_ne _ _ (Ne.symm h1)]
      exact h.header1 (by omega)

/-- The overrun discard leaves a good copy with room for one more byte. -/
theorem Codec.Ok.discard (h : c.Ok P) : (c.discard P).Ok P ∧ (c.discard P).len ≤ P.maxLen := by
  rcases c.discard_cases P with ⟨e, hl⟩ | ⟨e, _⟩ <;> rw [e]
  · exact ⟨h, hl⟩
  · exact ⟨h.shrink rfl (Nat.zero_le _), Nat.zero_le _⟩

theorem Codec.Ok.feed (h : c.Ok P) (b : Byte) : (c.feed P b).Ok P := by
  obtain ⟨hd, hl⟩ := h.discard
  rw [Codec.feed]
  rcases (c.discard P).accept_cases P b with ⟨_, e⟩ | ⟨_, _, hb, e⟩ | ⟨_, _, _, e⟩ | ⟨_, h2, e⟩ <;> rw [e]
  · exact hd
  · exact hd.append hl fun _ => hb
  · split
    · exact hd.shrink rfl (Nat.zero_le _)
    · exact hd
  · exact hd.append hl fun h2' => absurd h2 (by omega)

theorem Codec.Ok.feeds (h : c.Ok P) (bs : List Byte) : (c.feeds P bs).Ok P := by
  induction bs generalizing c with
  | nil => exact h
  | cons b bs ih => exact ih (h.feed b)

/-- Copies that hold nothing are alike if their accumulators are. -/
theorem Codec.Alike.of_len_eq_zero (hc : c.len = 0) (hd : d.len = 0) (h : c.crc = d.crc) : c.Alike d :=
  ⟨hc.trans hd.symm, h, fun a ha => absurd ha (by omega)⟩

/-- Copies that are alike agree in every derived value (R15). -/
theorem Codec.Alike.derived (h : c.Alike d) :
    c.cmd = d.cmd ∧ c.xlen = d.xlen ∧ c.valid = d.valid ∧ c.pay = d.pay :=
  Codec.derived_congr h.len h.cells

theorem Codec.Alike.cmd (h : c.Alike d) : c.cmd = d.cmd := h.derived.1
theorem Codec.Alike.xlen (h : c.Alike d) : c.xlen = d.xlen := h.derived.2.1
theorem Codec.Alike.valid (h : c.Alike d) : c.valid = d.valid := h.derived.2.2.1
theorem Codec.Alike.pay (h : c.Alike d) : c.pay = d.pay := h.derived.2.2.2

theorem Codec.Alike.append (h : c.Alike d) (hc : c.buf.wf) (hd : d.buf.wf) (b : Byte) :
    (c.append b).Alike (d.append b) where
  len := congrArg (· + 1) h.len
  crc := h.crc
  cells a ha := by
    rw [Codec.append_len] at ha
    by_cases hl : a = c.len
    · rw [hl, Codec.append_read_len b hc, h.len, Codec.append_read_len b hd]
    · rw [Codec.append_read_of_ne _ _ hl, Codec.append_read_of_ne _ _ (h.len ▸ hl)]
      exact h.cells a (by omega)

theorem Codec.Alike.discard (h : c.Alike d) (P : Params) : (c.discard P).Alike (d.discard P) := by
  unfold Codec.discard
  rw [← h.len]
  split
  · exact .of_len_eq_zero rfl rfl h.crc
  · exact h

theorem Codec.Alike.accept (h : c.Alike d) (hc : c.buf.wf) (hd : d.buf.wf) (P : Params) (b : Byte) :
    (c.accept P b).Alike (d.accept P b) := by
  have happend := h.append hc hd b
  unfold Codec.accept
  rw [← h.valid, ← h.len]
  split
  · exact h
  · split
    · split
      · exact happend
      · split
        · exact .of_len_eq_zero rfl rfl h.crc
        · exact h
    · exact happend

theorem Codec.Alike.feed (h : c.Alike d) (hc : c.buf.wf) (hd : d.buf.wf) (P : Params) (b : Byte) :
    (c.feed P b).Alike (d.feed P b) :=
  (h.discard P).accept ((c.discard_buf P).symm ▸ hc) ((d.discard_buf P).symm ▸ hd) P b

theorem Codec.Alike.feeds (h : c.Alike d) (hc : c.buf.wf) (hd : d.buf.wf) (P : Params)
    (bs : List Byte) : (c.feeds P bs).Alike (d.feeds P bs) := by
  induction bs generalizing c d with
  | nil => exact h
  | cons b bs ih => exact ih (h.feed hc hd P b) (Codec.feed_wf P b hc) (Codec.feed_wf P b hd)

end Codec

/-! ## The five ways in which an instruction can act -/

/-- How an instruction acts, in every state alike. What it returns is the same for copies that are alike,
and but for CRC.RD it does not depend on `crc`. -/
inductive ExecForm (i : Instr) : Prop where
  /-- CRC.CLR and CRC.UPD write `crc`, from `crc` alone (R73, R74). -/
  | accumulate (f : Byte → Byte) (which : i = .crcClr ∨ ∃ b, i = .crcUpd b)
      (acts : ∀ s, exec i s = .next (s.setCodec { s.codec with crc := f s.codec.crc }))
  /-- FRM.CLR empties the buffer (R87). -/
  | clear (which : i = .frmClr) (acts : ∀ s, exec i s = .next (s.setCodec s.codec.empty))
  /-- FRM.FEED feeds its byte, a packet kind its bytes (R80, R119). -/
  | feed (bs : List Byte) (which : (∃ b, i = .frmFeed b ∧ bs = [b]) ∨ i.packet? ≠ none)
      (acts : ∀ s, exec i s = .next (s.receive bs))
  /-- CRC.RD, the four queries and SER.ENC return a value (R75, R100, R111). -/
  | answer (q : Codec → Result) (congr : ∀ {c d : Codec}, c.Alike d → q c = q d)
      (which : i = .crcRd ∨ ∀ (c : Codec) (x : Byte), q { c with crc := x } = q c)
      (acts : ∀ s, exec i s = .next (s.reply (q s.codec)))
  /-- SER.ENC with too long a payload (R112). -/
  | refuse (r : Refusal) (acts : ∀ s, exec i s = .refused r)

theorem exec_form (i : Instr) : ExecForm i := by
  cases i with
  | crcClr => exact .accumulate (fun _ => crcInit) (.inl rfl) fun _ => rfl
  | crcUpd b => exact .accumulate (crc8Step · b) (.inr ⟨b, rfl⟩) fun _ => rfl
  | crcRd => exact .answer (.byte <| ·.crc ^^^ xorOut) (fun h => by rw [h.crc]) (.inl rfl) fun _ => rfl
  | frmFeed b => exact .feed [b] (.inl ⟨b, rfl, rfl⟩) fun _ => rfl
  | frmClr => exact .clear rfl fun _ => rfl
  | frmCmd =>
    exact .answer (.byte ·.cmd) (fun h => by rw [h.cmd]) (.inr fun _ _ => rfl) fun _ => rfl
  | frmXlen =>
    exact .answer (.length ·.xlen) (fun h => by rw [h.xlen]) (.inr fun _ _ => rfl) fun _ => rfl
  | frmValid =>
    exact .answer (.bit ·.valid) (fun h => by rw [h.valid]) (.inr fun _ _ => rfl) fun _ => rfl
  | frmPay =>
    exact .answer (.bytes ·.pay) (fun h => by rw [h.pay]) (.inr fun _ _ => rfl) fun _ => rfl
  | serEnc c p =>
    by_cases hl : p.length ≤ params.payMax
    · exact .answer (fun _ => .bytes (enc c p)) (fun _ => rfl) (.inr fun _ _ => rfl) fun _ => if_pos hl
    · exact .refuse .payloadTooLong fun _ => if_neg hl
  | _ => exact .feed _ (.inr (Option.some_ne_none _)) (exec_of_packet? rfl)

/-! ## The invariant is kept by every step -/

theorem State.codecs_setCodec_sel (s : State) (c : Codec) : (s.setCodec c).codecs[s.sel] = c :=
  s.codec_setCodec c

theorem State.Inv.codec {s : State} (hs : s.Inv) : s.codec.Ok params := hs s.sel

theorem State.Inv.setCodec {s : State} {c : Codec} (hs : s.Inv) (hc : c.Ok params) :
    (s.setCodec c).Inv := by
  intro k
  by_cases hk : k = s.sel
  · rw [hk, s.codecs_setCodec_sel]
    exact hc
  · rw [s.codecs_setCodec_of_ne c hk]
    exact hs k

theorem State.Inv.receive {s : State} (hs : s.Inv) (bs : List Byte) : (s.receive bs).Inv :=
  hs.setCodec (hs.codec.feeds bs)

/-- Taking the next action changes no copy of the block. -/
theorem State.Inv.take? {s t : State} {w : Stimulus} (hs : s.Inv) (h : s.take? = some (w, t)) :
    t.Inv := by
  obtain ⟨_, _, _, rfl⟩ := State.take?_eq_some h
  exact hs

theorem State.Inv.exec {s t : State} {i : Instr} (hs : s.Inv) (h : exec i s = .next t) : t.Inv := by
  cases exec_form i with
  | accumulate f _ acts =>
    cases (acts s).symm.trans h
    exact hs.setCodec (hs.codec.shrink rfl (Nat.le_refl _))
  | clear _ acts =>
    cases (acts s).symm.trans h
    exact hs.setCodec (hs.codec.shrink rfl (Nat.zero_le _))
  | feed bs _ acts =>
    cases (acts s).symm.trans h
    exact hs.receive bs
  | answer q _ _ acts =>
    cases (acts s).symm.trans h
    exact hs
  | refuse r acts => cases (acts s).symm.trans h

theorem State.Inv.step {s t : State} (hs : s.Inv) (h : step s = .next t) : t.Inv := by
  rcases step_cases s with ⟨_, e⟩ | ⟨u, hu, e⟩ | ⟨p, u, i, hu, _, e⟩ | ⟨p, u, _, hu, _, e⟩ <;>
    rw [e] at h
  · cases h
    exact hs
  · have hi := hs.take? hu
    cases h
    exact hi.setCodec (hi.codec.shrink rfl (Nat.zero_le _))
  · exact (hs.take? hu).exec h
  · cases p with
    | op w q => cases h
    | wire bytes =>
      cases h
      exact (hs.take? hu).receive bytes

/-- Settles O49, by the ways in which a step can act: each keeps the invariant of the copy it names. -/
theorem stepKeepsInvariant : Obligations.StepKeepsInvariant := fun _ _ hs h => hs.step h

/-! ## Stale cells are not observed -/

theorem State.Alike.codec {s t : State} (h : s.Alike t) : s.codec.Alike t.codec := by
  simpa only [State.codec, h.sel] using h.codecs s.sel

theorem State.Alike.setCodec {s t : State} {c d : Codec} (h : s.Alike t) (hc : c.Alike d) :
    (s.setCodec c).Alike (t.setCodec d) where
  sel := h.sel
  pending := h.pending
  returned := h.returned
  codecs k := by
    by_cases hk : k = s.sel
    · rw [hk, s.codecs_setCodec_sel, h.sel, t.codecs_setCodec_sel]
      exact hc
    · rw [s.codecs_setCodec_of_ne c hk, t.codecs_setCodec_of_ne d (h.sel ▸ hk)]
      exact h.codecs k

theorem State.Alike.reply {s t : State} (h : s.Alike t) (r : Result) : (s.reply r).Alike (t.reply r) where
  sel := h.sel
  pending := h.pending
  returned := by simp only [State.reply_returned, h.returned, h.sel]
  codecs := h.codecs

theorem State.Alike.receive {s t : State} (h : s.Alike t) (hs : s.Inv) (ht : t.Inv)
    (bs : List Byte) : (s.receive bs).Alike (t.receive bs) :=
  h.setCodec (h.codec.feeds hs.codec.canonical ht.codec.canonical params bs)

theorem State.Alike.exec {s t : State} (h : s.Alike t) (hs : s.Inv) (ht : t.Inv) (i : Instr) :
    OutcomeAlike (exec i s) (exec i t) := by
  cases exec_form i with
  | accumulate f _ acts =>
    rw [acts, acts, h.codec.crc]
    exact h.setCodec ⟨h.codec.len, rfl, h.codec.cells⟩
  | clear _ acts =>
    rw [acts, acts]
    exact h.setCodec (.of_len_eq_zero rfl rfl h.codec.crc)
  | feed bs _ acts =>
    rw [acts, acts]
    exact h.receive hs ht bs
  | answer q congr _ acts =>
    rw [acts, acts, congr h.codec]
    exact h.reply _
  | refuse r acts =>
    rw [acts, acts]
    exact rfl

/-- States that are alike are alike once the next action, the same in both, is taken. -/
theorem State.Alike.take? {s t : State} (h : s.Alike t) :
    (s.take? = none ∧ t.take? = none) ∨
    ∃ w u v, s.take? = some (w, u) ∧ t.take? = some (w, v) ∧ u.Alike v := by
  cases hp : s.pending with
  | nil => exact .inl ⟨s.take?_nil hp, t.take?_nil (h.pending ▸ hp)⟩
  | cons q rest =>
    exact .inr ⟨q.what, _, _, s.take?_cons hp, t.take?_cons (h.pending ▸ hp), rfl, rfl, h.returned, h.codecs⟩

theorem State.Alike.uninstructed {s t : State} (h : s.Alike t) (hs : s.Inv) (ht : t.Inv)
    (p : Presented) : OutcomeAlike (s.uninstructed p) (t.uninstructed p) := by
  cases p with
  | op w q => exact rfl
  | wire bytes => exact h.receive hs ht bytes

theorem State.Alike.step {s t : State} (h : s.Alike t) (hs : s.Inv) (ht : t.Inv) :
    OutcomeAlike (step s) (step t) := by
  rcases h.take? with ⟨es, et⟩ | ⟨w, u, v, es, et, huv⟩
  · simp only [Machine.step, es, et]
    exact h
  · have hu := hs.take? es
    have hv := ht.take? et
    cases w with
    | reset =>
      simp only [Machine.step, es, et]
      exact huv.setCodec (.of_len_eq_zero rfl rfl rfl)
    | present p =>
      cases hd : decode p with
      | ok i =>
        simp only [Machine.step, es, et, hd]
        exact huv.exec hu hv i
      | error e =>
        simp only [Machine.step, es, et, hd]
        exact huv.uninstructed hu hv p

/-- Settles O53: what is fed, answered and refused depends on the buffered bytes alone, and a byte that is
stored becomes a buffered one. -/
theorem staleCellsUnobservable : Obligations.StaleCellsUnobservable :=
  fun _ _ hs ht h => h.step hs ht

end Sys2Proof.Machine

/-! ## The accumulator and the buffer under an operation -/

namespace Sys2Proof.Machine

/-- Settles O18, by the ways in which an instruction can act: feeding and emptying commute with a change of
`crc`, and no answer but that of CRC.RD depends on it. -/
theorem accumulatorApart : Obligations.AccumulatorApart := by
  intro i s t h
  cases exec_form i with
  | accumulate f which acts =>
    rcases which with rfl | ⟨b, rfl⟩ <;> obtain rfl := Host.Outcome.next.inj h
    · exact .inl ⟨rfl, by rw [State.codec_setCodec]⟩
    · exact .inr (.inl ⟨b, rfl, by rw [State.codec_setCodec]⟩)
  | clear _ acts =>
    cases (acts s).symm.trans h
    refine .inr (.inr (.inr ⟨by simp, fun x => ?_⟩))
    rw [acts]
    simp [Codec.empty]
  | feed bs _ acts =>
    cases (acts s).symm.trans h
    refine .inr (.inr (.inr ⟨by simp, fun x => ?_⟩))
    rw [acts]
    simp [State.receive, Codec.feeds_setCrc]
  | answer q _ which acts =>
    rcases which with rfl | hq
    · obtain rfl := Host.Outcome.next.inj h
      exact .inr (.inr (.inl ⟨rfl, by simp [xorOut]⟩))
    · cases (acts s).symm.trans h
      refine .inr (.inr (.inr ⟨rfl, fun x => ?_⟩))
      rw [acts, State.codec_setCodec, hq]
      rfl
  | refuse r acts => cases (acts s).symm.trans h

section Feed
variable (P : Params) (b : Byte) (c : Codec)

/-- FRM.FEED stores the byte after the buffered ones, or it stores nothing: on a completed packet, and where
the header window rejects the byte (R93). -/
theorem Codec.feed_cases :
    ((c.discard P).valid = false ∧ ((c.discard P).len < 2 → b = hdr (c.discard P).len) ∧
      c.feed P b = (c.discard P).append b) ∨
    (((c.discard P).valid = true ∨ ((c.discard P).len < 2 ∧ b ≠ hdr (c.discard P).len)) ∧
      (c.feed P b).len ≤ (c.discard P).len ∧ (c.feed P b).buf = c.buf) := by
  rw [Codec.feed]
  rcases (c.discard P).accept_cases P b with
    ⟨hv, e⟩ | ⟨hv, _, hb, e⟩ | ⟨_, hl, hb, e⟩ | ⟨hv, h2, e⟩ <;> rw [e]
  · exact .inr ⟨.inl hv, Nat.le_refl _, c.discard_buf P⟩
  · exact .inl ⟨hv, fun _ => hb, rfl⟩
  · refine .inr ⟨.inr ⟨hl, hb⟩, ?_⟩
    split
    · exact ⟨Nat.zero_le _, c.discard_buf P⟩
    · exact ⟨Nat.le_refl _, c.discard_buf P⟩
  · exact .inl ⟨hv, fun hl => absurd hl (by omega), rfl⟩

/-- Only the cell after the buffered ones can change. -/
theorem Codec.feed_read_of_ne {a : Nat} (h : a ≠ (c.discard P).len) :
    (c.feed P b).buf.read a = c.buf.read a := by
  rcases c.feed_cases P b with ⟨_, _, e⟩ | ⟨_, _, e⟩ <;> rw [e]
  rw [Codec.append_read_of_ne _ _ h, Codec.discard_buf]

variable {P c}

/-- After an overrun discard the buffer holds the byte if it is the first of a header, and otherwise
nothing (R82). -/
theorem Codec.feed_over_len (hP : P.Legal) (h : P.maxLen < c.len) :
    (c.feed P b).len = if b = 0x24 then 1 else 0 := by
  rw [Codec.feed_over P b h, Codec.feed_hunt0 P b hP (Codec.empty_len c)]
  split <;> rfl

/-- A feed that does not make the buffer shorter leaves every buffered byte (R11). -/
theorem Codec.feed_read_of_lt (hP : P.Legal) (h : c.len ≤ (c.feed P b).len) {a : Nat} (ha : a < c.len) :
    (c.feed P b).buf.read a = c.buf.read a := by
  apply Codec.feed_read_of_ne
  rcases c.discard_cases P with ⟨e, _⟩ | ⟨_, hl⟩
  · rw [e]
    exact Nat.ne_of_lt ha
  · have hover := Codec.feed_over_len b hP hl
    have : 20 ≤ P.maxLen := hP
    split at hover <;> omega

variable (c)

/-- How FRM.FEED moves `len` at the machine's parameter values (R12). -/
theorem Codec.feed_len_cases :
    (c.feed params b).len = c.len ∨ (c.len ≤ 39 ∧ (c.feed params b).len = c.len + 1) ∨
    (c.len = 1 ∧ b ≠ 0x43 ∧ (c.feed params b).len = 0) ∨
    (39 < c.len ∧ (c.feed params b).len = if b = 0x24 then 1 else 0) := by
  by_cases hl : 39 < c.len
  · exact .inr (.inr (.inr ⟨hl, Codec.feed_over_len b params_legal hl⟩))
  · have hle : c.len ≤ 39 := by omega
    rw [Codec.feed_of_le params b hle]
    rcases c.accept_cases params b with ⟨_, e⟩ | ⟨_, _, _, e⟩ | ⟨_, h2, hb, e⟩ | ⟨_, _, e⟩ <;> rw [e]
    · exact .inl rfl
    · exact .inr (.inl ⟨hle, rfl⟩)
    · by_cases h1 : c.len = 1
      · rw [h1] at hb
        exact .inr (.inr (.inl ⟨h1, hb, rfl⟩))
      · exact .inl (show 0 = c.len by omega)
    · exact .inr (.inl ⟨hle, rfl⟩)

end Feed

/-- Settles O20, by whether the byte is stored. -/
theorem feedStoresOneCell : Obligations.FeedStoresOneCell := by
  intro b s t hwf h
  obtain rfl := Host.Outcome.next.inj h
  have hd : (s.codec.discard params).buf.wf := by rwa [Codec.discard_buf]
  simp only [State.codec_setCodec, Codec.feed_crc]
  have hframe : ∀ a, a ≠ (s.codec.discard params).len →
      (s.codec.feed params b).buf.read a = s.codec.buf.read a :=
    fun _ => s.codec.feed_read_of_ne params b
  rcases s.codec.feed_cases params b with ⟨hv, hb, e⟩ | ⟨hkeep, hl, e⟩
  · refine ⟨hframe, fun hkeep => ?_, fun _ => ?_, trivial⟩
    · rcases hkeep with hv' | ⟨hl, hb'⟩
      · exact absurd hv' (by simp [hv])
      · exact absurd (hb hl) hb'
    · rw [e]
      exact ⟨rfl, Codec.append_read_len b hd⟩
  · refine ⟨hframe, fun _ => ⟨hl, fun a => by rw [e]⟩, fun ⟨hv, hb⟩ => ?_, trivial⟩
    rcases hkeep with hv' | ⟨hl, hb'⟩
    · exact absurd hv' (by simp [hv])
    · exact absurd (hb hl) hb'

/-- An operation keeps cells and `len`, or it is FRM.CLR and empties the buffer, or it is FRM.FEED. -/
theorem exec_buffer_cases {i : Instr} {s t : State} (hi : i.packet? = none) (h : exec i s = .next t) :
    (t.codec.buf = s.codec.buf ∧ t.codec.len = s.codec.len) ∨
    (i = .frmClr ∧ t.codec = s.codec.empty) ∨
    ∃ b, i = .frmFeed b ∧ t.codec = s.codec.feed params b := by
  cases exec_form i with
  | accumulate f _ acts =>
    cases (acts s).symm.trans h
    rw [State.codec_setCodec]
    exact .inl ⟨rfl, rfl⟩
  | clear which acts =>
    cases (acts s).symm.trans h
    exact .inr (.inl ⟨which, State.codec_setCodec _ _⟩)
  | feed bs which acts =>
    cases (acts s).symm.trans h
    rcases which with ⟨b, rfl, rfl⟩ | hp
    · exact .inr (.inr ⟨b, rfl, State.receive_codec _ _⟩)
    · exact absurd hi hp
  | answer q _ _ acts =>
    cases (acts s).symm.trans h
    exact .inl ⟨rfl, rfl⟩
  | refuse r acts => cases (acts s).symm.trans h

/-- Settles O51, by what an operation can do to the buffer. -/
theorem lengthMoves : Obligations.LengthMoves := by
  intro i s t hi h
  rcases exec_buffer_cases hi h with ⟨_, hl⟩ | ⟨rfl, e⟩ | ⟨b, rfl, e⟩
  · exact .inl hl
  · exact .inr (.inl ⟨rfl, by rw [e]; rfl⟩)
  · rw [e]
    rcases s.codec.feed_len_cases b with hl | hmove
    · exact .inl hl
    · exact .inr (.inr ⟨b, rfl, hmove⟩)

/-- Settles O52, by what an operation can do to the buffer. -/
theorem bufferAppendOnly : Obligations.BufferAppendOnly := by
  intro i s t hi h
  rcases exec_buffer_cases hi h with ⟨hb, _⟩ | ⟨rfl, e⟩ | ⟨b, rfl, e⟩
  · exact ⟨fun _ a _ => by rw [hb], .inl hb⟩
  · rw [e]
    exact ⟨fun _ _ _ => rfl, .inl rfl⟩
  · rw [e]
    exact ⟨fun hl a ha => Codec.feed_read_of_lt b params_legal hl ha, .inr ⟨b, rfl⟩⟩

/-! ## Reset and the reachable states -/

@[simp] theorem State.reset_codecs (k : Fin ninst) : State.reset.codecs[k] = Codec.fresh := by
  simp [State.reset]

theorem Codec.fresh_ok : Codec.fresh.Ok params where
  canonical := by decide
  inside := by decide
  len_le := by decide
  header0 := by decide
  header1 := by decide

/-- Settles O10: the values of a fresh copy. -/
theorem resetValues : Obligations.ResetValues := by
  intro k
  rw [State.reset_codecs]
  exact ⟨rfl, rfl, rfl, rfl, rfl, rfl, rfl⟩

/-- Settles O50. -/
theorem resetMeetsInvariant : Obligations.ResetMeetsInvariant := fun k => by
  rw [State.reset_codecs]
  exact Codec.fresh_ok

/-- The invariant holds at reset, whatever is presented, and every step keeps it. -/
theorem Reachable.inv {s : State} (h : Reachable s) : s.Inv := by
  induction h with
  | start inputs => exact resetMeetsInvariant
  | step s t _ hst ih => exact ih.step hst

theorem Codec.len_bounds_of_valid {c : Codec} (h : c.valid = true) : 6 ≤ c.len ∧ c.len ≤ 20 := by
  have := Codec.len_eq_xlen_of_valid h
  have := c.xlen_cases
  omega

/-- Settles O48: the invariant of every reachable state, read off for one copy. -/
theorem reachableInvariants : Obligations.ReachableInvariants := by
  intro s hs k
  obtain ⟨_, _, hlen, h0, h1⟩ := hs.inv k
  have hw : params.lenW = 6 := by decide +kernel
  have hcap : s.codecs[k].len ≤ 40 := hlen
  exact ⟨hcap, h0, h1, Codec.len_bounds_of_valid, by rw [hw]; omega⟩

/-! ## One step -/

/-- Settles O6: what is taken from the queue is performed. -/
theorem stepRunsDecodedInstruction : Obligations.StepRunsDecodedInstruction := by
  refine ⟨fun s k q rest i hp hd => ?_, fun s hp => ?_⟩
  · simp only [step, s.take?_cons hp, hd]
  · simp only [step, s.take?_nil hp]

/-- A step takes first what is presented first. -/
theorem step_presentFirst {p : Presented} {i : Instr} (hd : decode p = .ok i) (s : State) :
    step (s.presentFirst p) = exec i s := by
  simp only [step, State.take?_presentFirst, hd]

/-- Settles O7: the bits present what the decoder reads from them. -/
theorem fetchedWordRuns : Obligations.FetchedWordRuns := by
  intro s nbits w i h
  unfold decodeTableWord at h
  split at h
  · next p hp =>
    cases hd : decode p with
    | error e => rw [hd] at h; cases h
    | ok j =>
      rw [hd] at h
      obtain rfl := Option.some.inj h
      rw [State.withFetchWord, hp]
      exact step_presentFirst hd s
  · cases h

/-! ## Copies share nothing -/

theorem State.OthersKept.refl (s : State) : s.OthersKept s := ⟨rfl, rfl, fun _ _ => rfl⟩

theorem State.OthersKept.trans {s t u : State} (h : s.OthersKept t) (h' : t.OthersKept u) :
    s.OthersKept u where
  sel := h'.sel.trans h.sel
  pending := h'.pending.trans h.pending
  codecs k hk := (h'.codecs k (h.sel ▸ hk)).trans (h.codecs k hk)

theorem State.after_othersKept (s : State) (c : Codec) (rs : List Result) :
    s.OthersKept (s.after c rs) :=
  ⟨rfl, rfl, fun _ hk => State.codecs_setCodec_of_ne _ _ hk⟩

theorem exec_othersKept {i : Instr} {s t : State} (h : exec i s = .next t) : s.OthersKept t := by
  rcases exec_local i with ⟨e, he⟩ | ⟨r, hr⟩
  · cases (he s).symm.trans h
    exact s.after_othersKept _ _
  · cases (hr s).symm.trans h

/-- Settles O54: an instruction acts by a function of the named copy alone. -/
theorem copiesShareNothing : Obligations.CopiesShareNothing := by
  intro i s t u h
  refine ⟨exec_othersKept h, fun hsel hcodec => ?_⟩
  rcases exec_local i with ⟨e, he⟩ | ⟨r, hr⟩
  · cases (he s).symm.trans h
    refine ⟨_, _, he u, ?_, State.after_returned _ _ _, ?_⟩
    · rw [State.after_codec, State.after_codec, hcodec]
    · rw [State.after_returned, hcodec, hsel]
  · cases (hr s).symm.trans h

end Sys2Proof.Machine

/-! ## Presenting operations, and the Bridge -/

namespace Sys2Proof.Machine

/-- The decoder reads back every operation (the packet kinds: `decodePacket_packetBytes`). -/
theorem decode_encode_of_operation {i : Instr} (h : i.packet? = none) : decode (encode i) = .ok i := by
  cases i with
  | crcClr | crcUpd | crcRd | frmFeed | frmClr | frmCmd | frmXlen | frmValid | frmPay | serEnc =>
    simp only [encode, decode, decodeOp_opWord] <;> rfl
  | _ => cases h

theorem execAll_cons_of_next {i : Instr} {is : List Instr} {s t : State} (h : exec i s = .next t) :
    execAll (i :: is) s = execAll is t := by rw [execAll, h]

theorem execAll_othersKept {is : List Instr} {s t : State} (h : execAll is s = .next t) :
    s.OthersKept t := by
  induction is generalizing s with
  | nil =>
    obtain rfl := Host.Outcome.next.inj h
    exact .refl s
  | cons i is ih =>
    cases hi : exec i s with
    | next u =>
      rw [execAll_cons_of_next hi] at h
      exact (exec_othersKept hi).trans (ih h)
    | fault r => cases r
    | refused r =>
      rw [execAll, hi] at h
      cases h

/-- Presenting operations to a copy one after another, a step each, performs them in order on that copy
(R36). -/
theorem run_presentAll {k : Fin ninst} {is : List Instr} {s : State} (hk : is = [] → s.sel = k)
    (h : ∀ i ∈ is, decode (encode i) = .ok i) :
    run is.length { s with pending := presentAll k is } =
      execAll is { s with pending := [], sel := k } := by
  induction is generalizing s with
  | nil =>
    obtain rfl := hk rfl
    rfl
  | cons i is ih =>
    have hstep : step { s with pending := presentAll k (i :: is) } =
        exec i { s with pending := presentAll k is, sel := k } :=
      stepRunsDecodedInstruction.1 _ k (encode i) (presentAll k is) i rfl (h i List.mem_cons_self)
    rcases exec_local i with ⟨e, he⟩ | ⟨r, hr⟩
    · rw [he] at hstep
      rw [execAll_cons_of_next (he _), List.length_cons, run_succ_of_next hstep]
      exact ih (s := State.after { s with sel := k } _ _) (fun _ => rfl)
        fun j hj => h j (List.mem_cons_of_mem _ hj)
    · rw [hr] at hstep
      rw [List.length_cons, run_succ_of_refused hstep, execAll, hr]

/-- A state in which only the named copy has changed has that copy written back. -/
theorem State.OthersKept.codecs_eq {s t : State} (h : s.OthersKept t) :
    t.codecs = (s.setCodec t.codec).codecs := by
  have key : ∀ k : Fin ninst, t.codecs[k] = (s.setCodec t.codec).codecs[k] := fun k => by
    by_cases hk : k = s.sel
    · rw [hk, s.codecs_setCodec_sel]
      simp only [State.codec, h.sel]
    · rw [h.codecs k hk, s.codecs_setCodec_of_ne t.codec hk]
  exact Vector.ext fun k hk => key ⟨k, hk⟩

theorem Codec.not_valid_empty (c : Codec) : c.empty.valid = false :=
  Codec.not_valid_of_lt (by simp)

/-- The Bridge releases a completed packet, and sends nothing for a byte that completes none (R139). -/
theorem bridgeByte_cases {b : Byte} {c e : Codec} {out : BridgeOut} (h : bridgeByte b c = some (e, out)) :
    ((c.feed params b).valid = false ∧ e = c.feed params b ∧ out = { toCan := none, toSerial := none }) ∨
    ((c.feed params b).valid = true ∧ e = (c.feed params b).empty) := by
  unfold bridgeByte at h
  dsimp only at h
  split at h
  · next hv =>
    refine .inr ⟨hv, ?_⟩
    split at h
    · obtain ⟨f, _, hf⟩ := Option.map_eq_some_iff.mp h
      exact (congrArg Prod.fst hf).symm
    · split at h <;> exact (congrArg Prod.fst (Option.some.inj h)).symm
  · next hv =>
    obtain ⟨rfl, rfl⟩ := Prod.mk.inj (Option.some.inj h)
    exact .inl ⟨by simpa using hv, rfl, rfl⟩

/-- The Bridge's operations for one byte feed it, and release the packet it completes, if any. -/
theorem execAll_bridgeOps (b : Byte) (s : State) :
    ∃ t, execAll (bridgeOps b s.codec) s = .next t ∧
      t.codec = if (s.codec.feed params b).valid then (s.codec.feed params b).empty
        else s.codec.feed params b := by
  unfold bridgeOps
  dsimp only
  split
  · split
    · exact ⟨_, rfl, by simp⟩
    · split <;> exact ⟨_, rfl, by simp⟩
  · exact ⟨_, rfl, by simp⟩

theorem bridgeOps_operations {b : Byte} {c : Codec} :
    ∀ i ∈ bridgeOps b c, i.packet? = none := by
  unfold bridgeOps
  dsimp only
  split_ifs <;> simp [Instr.packet?]

/-- What the Bridge presents for a byte does on the block what `bridgeByte` says. -/
theorem execAll_bridgeOps_of_bridgeByte {b : Byte} {s : State} {c : Codec} {out : BridgeOut}
    (h : bridgeByte b s.codec = some (c, out)) :
    c.valid = false ∧ ∃ t, execAll (bridgeOps b s.codec) s = .next t ∧ t.codec = c := by
  obtain ⟨t, ht, hc⟩ := execAll_bridgeOps b s
  rcases bridgeByte_cases h with ⟨hv, rfl, _⟩ | ⟨hv, rfl⟩
  · exact ⟨hv, t, ht, by simpa [hv] using hc⟩
  · exact ⟨Codec.not_valid_empty _, t, ht, by simpa [hv] using hc⟩

/-- A built payload is 14 bytes (R136). -/
theorem length_of_dataPayload {f : CanFrame} {p : List Byte} (h : dataPayload f = some p) :
    p.length = 14 := by
  unfold dataPayload at h
  split at h
  · next hf =>
    obtain ⟨h8, hd⟩ := hf
    obtain rfl := Option.some.inj h
    simp only [List.length_append, List.length_cons, List.length_nil, List.length_take,
      List.length_replicate]
    omega
  · cases h

/-- The serial direction handles a byte on its own copy of the block, which is then outside DONE. -/
theorem Bridge.serialByte_runs {g h : Bridge} {b : Byte} {s : State}
    (hg : g.handle (.serialByte b) = some h) (hs : s.codecs = g.codecs) :
    let acts := presentAll serialToCan (bridgeOps b g.codecs[serialToCan])
    ∃ t, run acts.length { s with pending := acts } = .next t ∧ t.codecs = h.codecs ∧
      h.codecs[serialToCan].valid = false ∧ h.codecs[canToSerial] = g.codecs[canToSerial] := by
  obtain ⟨⟨c, out⟩, hb, hh⟩ := Option.map_eq_some_iff.mp hg
  have hcodecs : h.codecs = g.codecs.set serialToCan c := by rw [← hh]
  have hu : State.codec { s with pending := [], sel := serialToCan } = g.codecs[serialToCan] := by
    rw [← hs]; rfl
  rw [← hu] at hb ⊢
  obtain ⟨hv, t, ht, rfl⟩ := execAll_bridgeOps_of_bridgeByte hb
  refine ⟨t, ?_, ?_, ?_, ?_⟩
  · rw [presentAll, List.length_map]
    exact (run_presentAll (fun hnil => by cases hnil)
      fun i hi => decode_encode_of_operation (bridgeOps_operations i hi)).trans ht
  · rw [(execAll_othersKept ht).codecs_eq, hcodecs, ← hs]
    rfl
  · rw [hcodecs]
    exact (congrArg Codec.valid (Vector.getElem_set_self _)).trans hv
  · rw [hcodecs]
    exact Vector.getElem_set_ne _ _ (by decide)

/-- The CAN direction has a frame's packet built on its own copy of the block, and feeds no framer. -/
theorem Bridge.canFrame_runs {g h : Bridge} {f : CanFrame} {s : State}
    (hg : g.handle (.canFrame f) = some h) :
    ∃ p, dataPayload f = some p ∧ h = { g with serialSink := g.serialSink ++ [enc codeSetdataReq p] } ∧
      run 1 { s with pending := presentAll canToSerial [.serEnc codeSetdataReq p] } =
        .next (State.reply { s with pending := [], sel := canToSerial } (.bytes (enc codeSetdataReq p))) := by
  obtain ⟨bytes, hb, rfl⟩ := Option.map_eq_some_iff.mp hg
  obtain ⟨p, hp, rfl⟩ := Option.map_eq_some_iff.mp hb
  refine ⟨p, hp, rfl, ?_⟩
  have hl : p.length ≤ params.payMax := by rw [length_of_dataPayload hp]; decide
  refine (run_presentAll (is := [.serEnc codeSetdataReq p]) (fun hnil => by cases hnil) ?_).trans ?_
  · simpa using decode_encode_of_operation (i := .serEnc codeSetdataReq p) rfl
  · exact execAll_cons_of_next (if_pos hl)

/-- Settles O58, for each direction on its own copy. -/
theorem bridgeNeverFeedsHeldPacket : Obligations.BridgeNeverFeedsHeldPacket := by
  refine ⟨fun b s c out h => ?_, fun e g h s hg hs _ => ?_⟩
  · obtain ⟨hv, hrun⟩ := execAll_bridgeOps_of_bridgeByte h
    refine ⟨hv, hrun, fun hv' => ?_⟩
    rcases bridgeByte_cases h with ⟨_, _, ho⟩ | ⟨hv'', _⟩
    · exact ho
    · rw [hv'] at hv''; cases hv''
  · cases e with
    | serialByte b =>
      obtain ⟨t, hrun, ht, hv, hother⟩ := Bridge.serialByte_runs hg hs
      exact ⟨_, t, rfl, hrun, ht, fun _ _ => ⟨hv, hother⟩, fun _ hf => by cases hf⟩
    | canFrame f =>
      obtain ⟨p, hp, rfl, hrun⟩ := Bridge.canFrame_runs (s := s) hg
      refine ⟨presentAll canToSerial [.serEnc codeSetdataReq p], _, ?_, hrun, hs,
        fun _ hb => (by cases hb), fun _ _ => ⟨rfl, rfl, _, rfl, rfl⟩⟩
      simp only [Bridge.actions, bridgeFrameOps, hp, Option.map_some]

end Sys2Proof.Machine

/-! ## The field map of a packet -/

namespace Sys2Proof.Machine

section PacketLayout
variable (c : Byte) (p : List Byte)

theorem length_covered : (covered c p).length = 3 + p.length := by
  rw [covered, List.length_cons, List.length_cons, List.length_cons]
  omega

/-- Before its checksum a packet is what the checksum covers (R50, R78). -/
theorem take_enc : (enc c p).take (3 + p.length) = covered c p := by
  rw [enc, packetBytes, ← length_covered c p, List.take_left]

/-- From position 3 on, the payload in order (R33). -/
theorem getElem?_enc_payload {n : Nat} (h : n < p.length) : (enc c p)[3 + n]? = p[n]? := by
  rw [enc, packetBytes, List.getElem?_append_left (by rw [length_covered]; omega), Nat.add_comm 3 n]
  rfl

/-- From position `3 + |p|` on, the checksum and the stop marker (R33). -/
theorem getElem?_enc_trailer (n : Nat) :
    (enc c p)[3 + p.length + n]? = [crc8 (covered c p), stop0, stop1][n]? := by
  rw [enc, packetBytes, List.getElem?_append_right (by rw [length_covered]; omega), length_covered,
    Nat.add_sub_cancel_left]

end PacketLayout

/-- Settles O40: header and command stand in front of the payload, checksum and stop marker behind it. -/
theorem packetFieldMap : Obligations.PacketFieldMap := by
  intro c p
  have hstop0 := getElem?_enc_trailer c p 1
  have hstop1 := getElem?_enc_trailer c p 2
  rw [show 3 + p.length + 1 = 4 + p.length by omega] at hstop0
  rw [show 3 + p.length + 2 = 5 + p.length by omega] at hstop1
  refine ⟨Laws.length_packetBytes c p _, rfl, rfl, rfl, fun n => getElem?_enc_payload c p, ?_,
    hstop0, hstop1⟩
  rw [take_enc]
  exact getElem?_enc_trailer c p 0

/-! ## A list of operations presented one per step -/

section PacketKinds
variable {i : Instr} {c : Byte} {p : List Byte} {k : Byte}

/-- A packet kind is presented as its bytes (R50). -/
theorem encode_of_packet? (h : i.packet? = some (c, p, k)) : encode i = .wire (packetBytes c p k) := by
  cases i <;> cases h <;> rfl

/-- A code outside the enumeration of R53 selects the default row (R129). -/
theorem packetInstr_of_unassigned (h : assigned c = false) :
    packetInstr c p k = .pktUnassigned c k := by
  simp only [assigned, assignedCodes, List.contains_cons, List.contains_nil, Bool.or_eq_false_iff,
    beq_eq_false_iff_ne] at h
  simp only [packetInstr, h, if_false]

/-- A well-formed packet kind has the payload length of its command, and is the kind that its command
selects (R50, R53, R129). -/
theorem packet_of_wellFormed (h : i.packet? = some (c, p, k)) (hwf : i.wellFormed = true) :
    p.length = ext c ∧ packetInstr c p k = i := by
  cases i with
  | pktUnassigned d l =>
    cases h
    rw [Instr.wellFormed, Instr.illFormed] at hwf
    split at hwf
    · cases hwf
    · next ha => exact ⟨Laws.length_of_checkPacket hwf, packetInstr_of_unassigned (by simpa using ha)⟩
  | _ =>
    cases h <;> exact ⟨Laws.length_of_checkPacket hwf, rfl⟩

end PacketKinds

/-- The decoder reads back every well-formed instruction (R52, R53, R58). -/
theorem decode_encode_of_wellFormed {i : Instr} (h : i.wellFormed = true) : decode (encode i) = .ok i := by
  cases hp : i.packet? with
  | none => exact decode_encode_of_operation hp
  | some f =>
    obtain ⟨c, p, k⟩ := f
    obtain ⟨hl, hi⟩ := packet_of_wellFormed hp h
    rw [encode_of_packet? hp, decode, decodePacket_packetBytes k hl, hi]

/-- Settles O9: what is presented decodes to the operation it stands for, on the copy named already. -/
theorem runFoldsOperations : Obligations.RunFoldsOperations := by
  intro is s hwf hp
  rw [run_presentAll (fun _ => rfl) fun i hi => decode_encode_of_wellFormed (hwf i hi), ← hp]

/-! ## What one action does, and two actions on different copies -/

/-- `s` after an action with the effect `e` on the copy `k`, `rest` being still to come. -/
def Effect.perform (e : Effect) (s : State) (k : Fin ninst) (rest : List Input) : State :=
  State.after { s with pending := rest, sel := k } (e.next s.codecs[k]) (e.returns s.codecs[k])

/-- What the copy `k` returns under the effect `e`, as the host sees it. -/
def Effect.replies (e : Effect) (k : Fin ninst) (c : Codec) : List Reply :=
  (e.returns c).map fun r => { copy := k, value := r }

/-- The action `w` has the effect `e` on whichever copy it is addressed to, in every state (R19, R34). -/
def Stimulus.Acts (w : Stimulus) (e : Effect) : Prop :=
  ∀ (s : State) (k : Fin ninst) (rest : List Input), s.pending = { copy := k, what := w } :: rest →
    step s = .next (e.perform s k rest)

section Perform
variable (e : Effect) (s : State) (k : Fin ninst) (rest : List Input)

@[simp] theorem Effect.perform_pending : (e.perform s k rest).pending = rest := rfl

@[simp] theorem Effect.perform_codecs :
    (e.perform s k rest).codecs = s.codecs.set k (e.next s.codecs[k]) := rfl

@[simp] theorem Effect.perform_returned :
    (e.perform s k rest).returned = s.returned ++ e.replies k s.codecs[k] := rfl

theorem Effect.perform_codecs_of_ne {j : Fin ninst} (h : j ≠ k) :
    (e.perform s k rest).codecs[j] = s.codecs[j] := (State.after_othersKept _ _ _).codecs j h

theorem Effect.length_replies_le_one (c : Codec) : (e.replies k c).length ≤ 1 := by
  rw [Effect.replies, List.length_map]
  exact e.atMostOne c

/-- Under one copy's name the host files no reply of another. -/
theorem Effect.filter_replies_of_ne {j : Fin ninst} (h : j ≠ k) (c : Codec) :
    (e.replies j c).filter (fun x => x.copy = k) = [] := by
  simp [Effect.replies, h]

end Perform

/-- An action that a step performs has an effect. -/
theorem acts_of_step {s t : State} {q : Input} {rest : List Input} (hp : s.pending = q :: rest)
    (h : step s = .next t) : ∃ e, q.what.Acts e := by
  rcases step_local q.what with he | ⟨r, hr⟩
  · exact he
  · rw [hr s q.copy rest hp] at h
    cases h

/-- Settles O56: an idle step returns nothing, and an action what its effect returns. -/
theorem resultsAreSnapshots : Obligations.ResultsAreSnapshots := by
  intro s t h
  cases hp : s.pending with
  | nil =>
    cases (stepRunsDecodedInstruction.2 s hp).symm.trans h
    exact ⟨[], (List.append_nil _).symm, Nat.zero_le _⟩
  | cons q rest =>
    obtain ⟨e, he⟩ := acts_of_step hp h
    cases (he s q.copy rest hp).symm.trans h
    exact ⟨_, e.perform_returned s q.copy rest, e.length_replies_le_one _ _⟩

/-- A run of some steps that has a next state takes its first step. -/
theorem exists_step_of_run_succ {n : Nat} {s t : State} (h : run (n + 1) s = .next t) :
    ∃ u, step s = .next u ∧ run n u = .next t := by
  cases hs : step s with
  | next u => exact ⟨u, rfl, (run_succ_of_next hs).symm.trans h⟩
  | fault r => cases r
  | refused r => cases (run_succ_of_refused hs).symm.trans h

section Commute
variable {q r : Input} {e f : Effect}

/-- Two actions on different copies each act on the copy as it was before both (R19, R37). -/
theorem run_two_of_acts (hne : q.copy ≠ r.copy) (he : q.what.Acts e) (hf : r.what.Acts f) (s : State)
    (rest : List Input) :
    ∃ t, run 2 { s with pending := q :: r :: rest } = .next t ∧
      t.codecs = (s.codecs.set q.copy (e.next s.codecs[q.copy])).set r.copy (f.next s.codecs[r.copy]) ∧
      t.pending = rest ∧
      t.returned = s.returned ++ e.replies q.copy s.codecs[q.copy] ++ f.replies r.copy s.codecs[r.copy] := by
  have h1 := he { s with pending := q :: r :: rest } q.copy (r :: rest) rfl
  have h2 := hf (e.perform { s with pending := q :: r :: rest } q.copy (r :: rest)) r.copy rest rfl
  refine ⟨_, (run_succ_of_next h1).trans (run_succ_of_next h2), ?_, rfl, ?_⟩
  · rw [Effect.perform_codecs, Effect.perform_codecs_of_ne _ _ _ _ hne.symm, Effect.perform_codecs]
  · rw [Effect.perform_returned, Effect.perform_codecs_of_ne _ _ _ _ hne.symm, Effect.perform_returned]

/-- Of two copies at most one has replies that the host files under `k`, so their order does not matter. -/
theorem filter_replies_comm (hne : q.copy ≠ r.copy) (k : Fin ninst) (c d : Codec) :
    (e.replies q.copy c ++ f.replies r.copy d).filter (fun x => x.copy = k) =
      (f.replies r.copy d ++ e.replies q.copy c).filter (fun x => x.copy = k) := by
  rw [List.filter_append, List.filter_append]
  by_cases hq : q.copy = k
  · rw [f.filter_replies_of_ne k fun hr => hne (hq.trans hr.symm), List.append_nil, List.nil_append]
  · rw [e.filter_replies_of_ne k hq, List.append_nil, List.nil_append]

end Commute

/-- Settles O55: each action has its effect on its own copy, whichever of the two comes first. -/
theorem differentCopiesCommute : Obligations.DifferentCopiesCommute := by
  intro s t q r rest hne hrun
  obtain ⟨v, hv, hrest⟩ := exists_step_of_run_succ hrun
  obtain ⟨w, hw, _⟩ := exists_step_of_run_succ hrest
  obtain ⟨e, he⟩ := acts_of_step rfl hv
  have hpv : v.pending = r :: rest := by
    cases (he _ q.copy (r :: rest) rfl).symm.trans hv
    exact e.perform_pending _ _ _
  obtain ⟨f, hf⟩ := acts_of_step hpv hw
  obtain ⟨t', ht, htc, htp, htr⟩ := run_two_of_acts hne he hf s rest
  obtain ⟨u, hu, huc, hup, hur⟩ := run_two_of_acts hne.symm hf he s rest
  cases ht.symm.trans hrun
  refine ⟨u, hu, ?_, hup.trans htp.symm, fun k => ?_⟩
  · rw [huc, htc]
    exact Vector.set_comm _ _ fun h => hne (Fin.ext h.symm)
  · rw [hur, htr, List.append_assoc, List.append_assoc, List.filter_append,
      filter_replies_comm hne.symm, ← List.filter_append]

end Sys2Proof.Machine

/-! ## Packets: the kind of a command, their bytes fed one at a time, and the loop back -/

namespace Sys2Proof.Machine

/-- Settles O1: operations and packet kinds are both read back. -/
theorem decodeInvertsEncode : Obligations.DecodeInvertsEncode := fun _ => decode_encode_of_wellFormed

section PacketKind
variable {c : Byte} {p : List Byte} {k : Byte}

/-- A code outside the enumeration of R53 dictates no payload (R54). -/
theorem ext_of_unassigned (h : assigned c = false) : ext c = 0 := by
  simp only [assigned, assignedCodes, List.contains_cons, List.contains_nil, Bool.or_eq_false_iff,
    beq_eq_false_iff_ne] at h
  simp only [ext, h, or_false, if_false]

/-- The packet kind of a command keeps command, payload and checksum, and has no check but the common
ones (R50, R53, R129). -/
theorem packetInstr_fields (h : p.length = ext c) :
    (packetInstr c p k).packet? = some (c, p, k) ∧
      (packetInstr c p k).illFormed = checkPacket c p k := by
  cases ha : assigned c with
  | false =>
    obtain rfl := eq_nil_of_unextended h (ext_of_unassigned ha)
    rw [packetInstr_of_unassigned ha]
    exact ⟨rfl, by rw [Instr.illFormed, ha]; rfl⟩
  | true =>
    have hp : p = if ext c = 0 then [] else p := by
      split
      · exact eq_nil_of_unextended h ‹_›
      · rfl
    have hc : c ∈ assignedCodes := List.contains_iff_mem.mp ha
    simp only [assignedCodes, List.mem_cons, List.not_mem_nil, or_false] at hc
    rw [hp]
    rcases hc with rfl | rfl | rfl | rfl | rfl | rfl | rfl | rfl | rfl <;> exact ⟨rfl, rfl⟩

theorem packet?_packetInstr (h : p.length = ext c) :
    (packetInstr c p k).packet? = some (c, p, k) := (packetInstr_fields h).1

/-- A packet is well formed when its checksum is right (R52). -/
theorem wellFormed_packetInstr (h : p.length = ext c) :
    (packetInstr c p k).wellFormed = true ↔ k = crc8 (covered c p) := by
  rw [Instr.wellFormed, (packetInstr_fields h).2, checkPacket, if_neg (not_not_intro h)]
  by_cases hk : k = crc8 (covered c p) <;> simp [hk]

end PacketKind

/-- Settles O3: what decodes is a packet with some checksum, and it is well formed when that checksum is
the serializer's. -/
theorem packetsAreSerializerOutputs : Obligations.PacketsAreSerializerOutputs := by
  intro bs
  constructor
  · rintro ⟨i, hd, hwf⟩
    obtain ⟨c, p, k, hl, rfl, rfl⟩ := exists_of_decodePacket hd
    obtain rfl := (wellFormed_packetInstr hl).mp hwf
    exact ⟨c, p, hl, rfl⟩
  · rintro ⟨c, p, hl, rfl⟩
    exact ⟨packetInstr c p (crc8 (covered c p)), decodePacket_packetBytes _ hl,
      (wellFormed_packetInstr hl).mpr rfl⟩

section Present
variable {s : State} {k : Fin ninst} {rest : List Input}

/-- A step that is presented no instruction takes it from the queue, and refuses or feeds it. -/
theorem step_of_decode_error {q : Presented} {e : DecodeError}
    (hp : s.pending = { copy := k, what := .present q } :: rest) (hd : decode q = .error e) :
    step s = State.uninstructed { s with pending := rest, sel := k } q := by
  simp only [step, s.take?_cons hp, hd]

/-- Bytes presented are fed, whether they decode to a packet or not (R56, R157). -/
theorem step_wire {bs : List Byte} (hp : s.pending = { copy := k, what := .present (.wire bs) } :: rest) :
    step s = .next (State.receive { s with pending := rest, sel := k } bs) := by
  cases hd : decode (.wire bs) with
  | error e => exact step_of_decode_error hp hd
  | ok i =>
    rw [stepRunsDecodedInstruction.1 s k _ rest i hp hd]
    obtain ⟨c, p, j, hl, rfl, rfl⟩ := exists_of_decodePacket hd
    exact exec_of_packet? (packet?_packetInstr hl) _

end Present

/-- FRM.FEED on each byte of a sequence, in order, is the arrival of the sequence (R60). -/
theorem execAll_feedsOps (bs : List Byte) (s : State) :
    execAll (feedsOps bs) s = .next (s.receive bs) := by
  induction bs generalizing s with
  | nil => simp [feedsOps, execAll, State.receive]
  | cons b bs ih =>
    have hfeed : exec (.frmFeed b) s = .next (s.receive [b]) := rfl
    calc execAll (feedsOps (b :: bs)) s
      _ = execAll (feedsOps bs) (s.receive [b]) := execAll_cons_of_next hfeed
      _ = .next ((s.receive [b]).receive bs) := ih _
      _ = .next (s.receive (b :: bs)) := by simp [State.receive]

theorem State.receive_othersKept (s : State) (bs : List Byte) : s.OthersKept (s.receive bs) :=
  execAll_othersKept (execAll_feedsOps bs s)

/-- Chunks fed one after another are the joined stream fed (R90). -/
theorem Codec.feeds_flatten (P : Params) (chunks : List (List Byte)) (c : Codec) :
    c.feeds P chunks.flatten = chunks.foldl (fun c chunk => c.feeds P chunk) c := by
  induction chunks generalizing c with
  | nil => rfl
  | cons chunk chunks ih =>
    rw [List.flatten_cons, Codec.feeds_append, ih, List.foldl_cons]

/-- Settles O29: the joined stream arrives byte by byte, and feeding composes over the chunks. -/
theorem batchingDoesNotMatter : Obligations.BatchingDoesNotMatter := by
  intro chunks s
  rw [execAll_feedsOps, State.receive, Codec.feeds_flatten]

/-- Settles O43: a packet kind and a stretch of bytes are both the arrival of their bytes. -/
theorem packetIsItsBytesFed : Obligations.PacketIsItsBytesFed := by
  refine ⟨fun i c p k s h => ?_, fun bs s => ⟨_, step_wire rfl, execAll_feedsOps bs s⟩⟩
  rw [exec_of_packet? h]
  exact ⟨(execAll_feedsOps _ s).symm, _, rfl, rfl, by simp, s.receive_othersKept _⟩

/-! ## A packet fed to an empty buffer -/

section Receive
variable {P : Params} {d : Codec} {x : Byte} {p : List Byte}

/-- A cell reads as the byte buffered there. -/
theorem Codec.read_of_bytes {a : Nat} {b : Byte} (h : d.bytes[a]? = some b) : d.buf.read a = b := by
  obtain ⟨ha, rfl⟩ := List.getElem?_eq_some_iff.mp h
  exact ((d.getElem_slice 0 d.len a ha).trans (by rw [Nat.zero_add])).symm

/-- A stretch of buffered cells is a stretch of the buffered bytes. -/
theorem Codec.slice_eq_bytes {i j : Nat} (hij : i ≤ j) (hj : j ≤ d.len) :
    d.slice i j = (d.bytes.take j).drop i := by
  rw [Codec.bytes, d.slice_split (Nat.zero_le j) hj, List.take_left' ((d.length_slice 0 j).trans j.sub_zero),
    d.slice_split (Nat.zero_le i) hij, List.drop_left' ((d.length_slice 0 i).trans i.sub_zero)]

/-- Within a packet every byte is appended: the first two pass the header window, and no packet is
complete before its length (R84, R85, R103). -/
theorem Codec.feed_within_packet {b k : Byte} (hP : P.Legal) (hl : p.length = ext x)
    (h : d.bytes ++ [b] <+: packetBytes x p k) : d.feed P b = d.append b := by
  have hlen := h.length_le
  rw [List.length_append, d.length_bytes, List.length_singleton, Laws.length_packetBytes] at hlen
  obtain ⟨rest, hrest⟩ := h
  have hread {a : Nat} (ha : a < d.len) : d.bytes[a]? = (packetBytes x p k)[a]? := by
    rw [← hrest, List.append_assoc, List.getElem?_append_left (by simpa using ha)]
  have hb : (packetBytes x p k)[d.len]? = some b := by
    rw [← hrest, List.append_assoc, List.getElem?_append_right (by simp)]
    simp
  have hmax : p.length ≤ 14 := by have := ext_cases x; omega
  have h20 : 20 ≤ P.maxLen := hP
  by_cases h2 : d.len < 2
  · rw [Codec.feed_window P b hP h2, if_pos]
    interval_cases d.len <;> exact (Option.some.inj hb).symm
  · refine Codec.feed_append P b (by omega) (by omega) (Codec.not_valid_of_len_ne ?_)
    by_cases h3 : d.len = 2
    · have := d.xlen_cases
      omega
    · have hcmd : d.cmd = x := (if_pos (by omega)).trans (Codec.read_of_bytes (hread (by omega)))
      rw [Codec.xlen, minLen, hcmd, ← hl]
      omega

/-- What has been fed of a packet is what is buffered (R89). -/
theorem Codec.feeds_bytes_of_prefix {bs : List Byte} {k : Byte} (hP : P.Legal) (hwf : d.buf.wf)
    (h0 : d.len = 0) (hl : p.length = ext x) (h : bs <+: packetBytes x p k) :
    (d.feeds P bs).bytes = bs := by
  induction bs using List.reverseRecOn with
  | nil => exact List.length_eq_zero_iff.mp (d.length_bytes.trans h0)
  | append_singleton bs b ih =>
    have hbytes := ih ((List.prefix_append bs [b]).trans h)
    rw [Codec.feeds_concat, Codec.feed_within_packet hP hl (by rwa [hbytes]),
      Codec.append_bytes b (Codec.feeds_wf P bs hwf), hbytes]

/-- A buffer that holds a serializer output is valid, and its command and payload are those that were
serialized (R101, R103, R104). -/
theorem Codec.derived_of_bytes_eq_enc (hl : p.length = ext x) (h : d.bytes = enc x p) :
    d.cmd = x ∧ d.valid = true ∧ d.pay = p := by
  have hlen : d.len = 6 + p.length := by rw [← d.length_bytes, h, enc, Laws.length_packetBytes]
  have hcmd : d.cmd = x := (if_pos (by omega)).trans (Codec.read_of_bytes (by rw [h]; rfl))
  have htrailer {n : Nat} {b : Byte} (hn : [crc8 (covered x p), stop0, stop1][n]? = some b) :
      d.buf.read (3 + p.length + n) = b :=
    Codec.read_of_bytes (by rw [h, getElem?_enc_trailer, hn])
  have hcovered : d.slice 0 (3 + p.length) = covered x p := by
    rw [Codec.slice_eq_bytes (Nat.zero_le _) (by omega), h, take_enc, List.drop_zero]
  have hvalid : d.valid = true := by
    simp only [Codec.valid, Codec.xlen, hcmd, ← hl, hlen, Bool.and_eq_true, decide_eq_true_eq,
      show 6 + p.length - 3 = 3 + p.length by omega, show 6 + p.length - 2 = 3 + p.length + 1 by omega,
      show 6 + p.length - 1 = 3 + p.length + 2 by omega, hcovered, true_and]
    exact ⟨⟨htrailer rfl, htrailer rfl⟩, (htrailer (n := 0) rfl).symm⟩
  refine ⟨hcmd, hvalid, ?_⟩
  rw [Codec.pay, if_pos hvalid, Codec.slice_eq_bytes (by omega) (by omega), h, hlen,
    show 6 + p.length - 3 = 3 + p.length by omega, take_enc]
  rfl

end Receive

/-- `TAKE` on a completed packet returns 1, the command and the payload, and releases it (R60). -/
theorem execAll_takeOps_of_valid {s : State} (h : s.codec.valid = true) :
    execAll (takeOps s) s =
      .next ((((s.reply (.bit true)).reply (.byte s.codec.cmd)).reply (.bytes s.codec.pay)).setCodec
        s.codec.empty) := by
  rw [takeOps, if_pos h, ← h]
  rfl

/-- `LOOP` returns the packet and feeds it (R60). -/
theorem execAll_loopOps {c : Byte} {p : List Byte} (h : p.length ≤ params.payMax) (s : State) :
    execAll (loopOps c p) s = .next ((s.reply (.bytes (enc c p))).receive (enc c p)) :=
  (execAll_cons_of_next (i := .serEnc c p) (if_pos h)).trans (execAll_feedsOps _ _)

/-- Settles O42: the packet that SER.ENC returns is buffered as it is fed, and is then valid. -/
theorem loopReturnsCommandAndPayload : Obligations.LoopReturnsCommandAndPayload := by
  intro c p s hl hwf h0
  have hpay : p.length ≤ params.payMax := by
    have := ext_cases c
    rw [params_payMax]
    omega
  have hloop := execAll_loopOps (c := c) hpay s
  obtain ⟨hcmd, hvalid, hp⟩ := Codec.derived_of_bytes_eq_enc hl
    (Codec.feeds_bytes_of_prefix params_legal hwf h0 hl List.prefix_rfl)
  have htake := execAll_takeOps_of_valid (s := (s.reply (.bytes (enc c p))).receive (enc c p))
    (by simpa using hvalid)
  refine ⟨_, _, hloop, htake, ?_, ?_, ?_, (execAll_othersKept hloop).trans (execAll_othersKept htake)⟩
  · simp [hcmd, hp]
  · simp
  · simp

end Sys2Proof.Machine

/-! ## The operation words, and what is refused -/

namespace Sys2Proof.Machine

/-- The word `w` selects the operation `i` whatever payload stands beside it, and `i` is presented as `w`
but for a data field that it ignores (R58; log entry 5). -/
structure SelectsAlone (w : OpWord) (i : Instr) : Prop where
  decodes : ∀ q, decodeOp w q = .ok i
  word : (∃ b, i = .crcUpd b ∧ encode i = .op w []) ∨ (∃ b, i = .frmFeed b ∧ encode i = .op w []) ∨
    (i ∈ [.crcClr, .crcRd, .frmClr, .frmCmd, .frmXlen, .frmValid, .frmPay] ∧
      encode i = .op (opWord (opField w) 0x00) [])

theorem SelectsAlone.ne_serEnc {w : OpWord} {i : Instr} (h : SelectsAlone w i) (c : Byte) (q : List Byte) :
    i ≠ .serEnc c q := by
  rintro rfl
  rcases h.word with ⟨_, hi, _⟩ | ⟨_, hi, _⟩ | ⟨hi, _⟩ <;> simp at hi

section OperationWord
variable {w : OpWord} {p : List Byte}

theorem packet?_of_decodeOp {i : Instr} (h : decodeOp w p = .ok i) : i.packet? = none := by
  unfold decodeOp at h
  split at h <;> cases h <;> rfl

theorem decodeOp_of_reserved (h : opField w ∈ [0x3, 0xA, 0xB, 0xD, 0xE, 0xF]) :
    decodeOp w p = .error (.reservedOp (opField w)) := by
  rw [decodeOp]
  generalize opField w = op at h
  fin_cases h <;> rfl

theorem decodeOp_of_serEnc (h : opField w = 0xC) : decodeOp w p = .ok (.serEnc (dataField w) p) := by
  rw [decodeOp, h]
  rfl

/-- Every other word selects an operation alone: the remaining rows of the table of R58. -/
theorem exists_selectsAlone (hres : opField w ∉ [0x3, 0xA, 0xB, 0xD, 0xE, 0xF]) (henc : opField w ≠ 0xC) :
    ∃ i, SelectsAlone w i := by
  have hop : ∀ op : BitVec 4, op ∉ [0x3#4, 0xA, 0xB, 0xD, 0xE, 0xF] → op ≠ 0xC →
      op = 0x1 ∨ op = 0x4 ∨ op ∈ [0x0#4, 0x2, 0x5, 0x6, 0x7, 0x8, 0x9] := by decide
  have hw := opWord_fields w
  have hd : ∀ q, decodeOp w q = decodeOp (opWord (opField w) (dataField w)) q := fun q => by rw [hw]
  simp only [decodeOp_opWord] at hd
  rcases hop _ hres henc with h | h | h
  · rw [h] at hd hw
    exact ⟨_, hd, .inl ⟨_, rfl, by rw [encode, hw]⟩⟩
  · rw [h] at hd hw
    exact ⟨_, hd, .inr (.inl ⟨_, rfl, by rw [encode, hw]⟩)⟩
  · generalize hf : opField w = op at h hd
    fin_cases h <;> exact ⟨_, hd, .inr (.inr ⟨by decide, by rw [hf]; rfl⟩)⟩

end OperationWord

/-- Settles O2: a packet is the packet kind of its command, and a word selects an operation alone or is one
of SER.ENC. -/
theorem encodeInvertsDecode : Obligations.EncodeInvertsDecode := by
  intro q i hd
  cases q with
  | wire bs =>
    obtain ⟨c, p, k, hl, rfl, rfl⟩ := exists_of_decodePacket hd
    have he : encode (packetInstr c p k) = .wire (packetBytes c p k) :=
      encode_of_packet? (packet?_packetInstr hl)
    exact ⟨he ▸ hd, fun bs hbs => he.trans hbs, fun _ _ h => by cases h⟩
  | op w p =>
    refine ⟨decode_encode_of_operation (packet?_of_decodeOp hd), fun _ h => (by cases h), ?_⟩
    rintro _ _ ⟨⟩
    by_cases henc : opField w = 0xC
    · cases (decodeOp_of_serEnc henc).symm.trans hd
      exact .inr (.inr (.inl ⟨_, rfl, by rw [encode, ← opWord_fields w, henc, dataField_opWord]⟩))
    · by_cases hres : opField w ∈ [0x3, 0xA, 0xB, 0xD, 0xE, 0xF]
      · cases (decodeOp_of_reserved hres).symm.trans hd
      · obtain ⟨j, hj⟩ := exists_selectsAlone hres henc
        cases (hj.decodes p).symm.trans hd
        exact hj.word.imp_right (Or.imp_right .inr)

/-- Settles O4, by the decoder on the eight literals. -/
theorem writtenWordsDecode : Obligations.WrittenWordsDecode :=
  ⟨rfl, rfl, rfl, rfl, rfl, rfl, rfl, rfl⟩

/-- Settles O37, by the two tests of `ext`. -/
theorem extensionTable : Obligations.ExtensionTable := by
  refine ⟨rfl, rfl, rfl, rfl, rfl, fun c hc => ?_⟩
  simp only [List.mem_cons, List.not_mem_nil, or_false, not_or] at hc
  simp only [ext, codeSetbaudReq, codeSetbaudRsp, codeGetverRsp, codeSetdataReq, codeRecvdata, hc,
    or_self, if_false]

section Refusal
variable {s : State} {k : Fin ninst} {rest : List Input}

/-- A word is refused for a reserved `op`, or for too long a payload of SER.ENC (R59, R112). -/
theorem step_op_refused_iff {w : OpWord} {p : List Byte} {r : Refusal}
    (hp : s.pending = { copy := k, what := .present (.op w p) } :: rest) :
    step s = .refused r ↔
      (opField w ∈ [0x3, 0xA, 0xB, 0xD, 0xE, 0xF] ∧ r = .reservedOp (opField w)) ∨
      (opField w = 0xC ∧ 33 < p.length ∧ r = .payloadTooLong) := by
  by_cases hres : opField w ∈ [0x3, 0xA, 0xB, 0xD, 0xE, 0xF]
  · have henc : opField w ≠ 0xC := fun h => by rw [h] at hres; exact absurd hres (by decide)
    rw [step_of_decode_error hp (decodeOp_of_reserved hres), State.uninstructed,
      Host.Outcome.refused.injEq]
    simp only [hres, henc, true_and, false_and, or_false, eq_comm]
  · by_cases henc : opField w = 0xC
    · rw [stepRunsDecodedInstruction.1 s k _ rest _ hp (decodeOp_of_serEnc henc), exec_refused_iff]
      simp [henc, and_comm]
    · obtain ⟨i, hi⟩ := exists_selectsAlone hres henc
      rw [stepRunsDecodedInstruction.1 s k _ rest i hp (hi.decodes p), exec_refused_iff]
      simp only [hres, henc, hi.ne_serEnc, false_and, exists_false, and_false, or_self]

end Refusal

/-- Settles O5: a word is reserved, one of SER.ENC, or selects an operation alone. -/
theorem reservedOperationsRefused : Obligations.ReservedOperationsRefused := by
  intro w p
  refine ⟨fun hres => ⟨decodeOp_of_reserved hres, fun s =>
    (step_op_refused_iff rfl).mpr (.inl ⟨hres, rfl⟩)⟩, fun hres => ?_, fun henc q => ?_⟩
  · by_cases henc : opField w = 0xC
    · exact ⟨_, decodeOp_of_serEnc henc⟩
    · obtain ⟨i, hi⟩ := exists_selectsAlone hres henc
      exact ⟨i, hi.decodes p⟩
  · by_cases hres : opField w ∈ [0x3, 0xA, 0xB, 0xD, 0xE, 0xF]
    · exact (decodeOp_of_reserved hres).trans (decodeOp_of_reserved hres).symm
    · obtain ⟨i, hi⟩ := exists_selectsAlone hres henc
      exact (hi.decodes q).trans (hi.decodes p).symm

/-- A well-formed instruction is not the one that is refused (R112). -/
theorem exists_exec_of_wellFormed {i : Instr} (h : i.wellFormed = true) (s : State) :
    ∃ t, exec i s = .next t := by
  cases ht : exec i s with
  | next t => exact ⟨t, rfl⟩
  | fault f => cases f
  | refused r =>
    obtain ⟨_, c, p, rfl, hlong⟩ := (exec_refused_iff i s r).mp ht
    rw [Instr.wellFormed, Instr.illFormed, if_pos hlong] at h
    cases h

/-- Settles O8: idle steps, resets and bytes have a next state, and a word is refused for its two reasons. -/
theorem nothingStopsTheBlock : Obligations.NothingStopsTheBlock := by
  refine ⟨fun _ s h => exists_exec_of_wellFormed h s, fun _ f => (by cases f), fun s r => ⟨fun h => ?_, ?_⟩⟩
  · match hp : s.pending with
    | [] => cases (stepRunsDecodedInstruction.2 s hp).symm.trans h
    | ⟨k, .reset⟩ :: rest =>
      simp only [step, s.take?_cons hp] at h
      cases h
    | ⟨k, .present (.wire bs)⟩ :: rest => cases (step_wire hp).symm.trans h
    | ⟨k, .present (.op w p)⟩ :: rest => exact ⟨k, w, p, rest, rfl, (step_op_refused_iff hp).mp h⟩
  · rintro ⟨k, w, p, rest, hp, h⟩
    exact (step_op_refused_iff hp).mpr h

end Sys2Proof.Machine

/-! ## The arithmetic of the CRC-8 -/

namespace Sys2Proof.Machine

/-- A conditional shift is linear over xor: the feedback is taken where exactly one top bit is set. -/
theorem crcShift_xor (x y : Byte) : crcShift (x ^^^ y) = crcShift x ^^^ crcShift y := by
  have hshift : (x ^^^ y) <<< 1 = x <<< 1 ^^^ y <<< 1 := BitVec.shiftLeft_xor_distrib x y 1
  unfold crcShift
  rw [hshift, BitVec.msb_xor]
  generalize x <<< 1 = a, y <<< 1 = b
  cases x.msb <;> cases y.msb
  · rfl
  · exact BitVec.xor_assoc a b poly
  · change a ^^^ b ^^^ poly = a ^^^ poly ^^^ b
    ac_rfl
  · calc a ^^^ b
      _ = a ^^^ b ^^^ (poly ^^^ poly) := by rw [BitVec.xor_self, BitVec.xor_zero]
      _ = a ^^^ poly ^^^ (b ^^^ poly) := by ac_rfl

theorem crcShifts_xor (n : Nat) (x y : Byte) :
    crcShifts n (x ^^^ y) = crcShifts n x ^^^ crcShifts n y := by
  induction n generalizing x y with
  | zero => rfl
  | succ n ih => simp only [crcShifts, crcShift_xor, ih]

/-- A conditional shift loses nothing: the polynomial's lowest bit tells whether there was feedback. -/
theorem crcShift_injective : Function.Injective crcShift := by
  have hker : ∀ x : Byte, crcShift x = 0#8 → x = 0#8 := by decide
  intro x y h
  rw [← BitVec.xor_eq_zero_iff] at h ⊢
  exact hker _ (by rw [crcShift_xor, h])

theorem crcShifts_injective (n : Nat) : Function.Injective (crcShifts n) := by
  induction n with
  | zero => exact Function.injective_id
  | succ n ih => exact ih.comp crcShift_injective

/-- One CRC step is linear in the accumulator and the byte together. -/
theorem crc8Step_xor (c d x y : Byte) :
    crc8Step (c ^^^ d) (x ^^^ y) = crc8Step c x ^^^ crc8Step d y := by
  rw [crc8Step, crc8Step, crc8Step, ← crcShifts_xor]
  congr 1
  ac_rfl

theorem crc8Step_right_injective (c : Byte) : Function.Injective (crc8Step c) := fun x y h => by
  simpa using crcShifts_injective 8 h

theorem crc8Step_left_injective (x : Byte) : Function.Injective (crc8Step · x) := fun c d h => by
  simpa using crcShifts_injective 8 h

/-- A byte equal to the accumulator clears it. -/
theorem crc8Step_self (c : Byte) : crc8Step c c = 0x00 := by
  rw [crc8Step, BitVec.xor_self]
  rfl

theorem crc8Step_eq_zero_iff {c x : Byte} : crc8Step c x = 0x00 ↔ x = c := by
  rw [← crc8Step_self c, (crc8Step_right_injective c).eq_iff]

theorem crc8_eq_foldl (s : List Byte) : crc8 s = s.foldl crc8Step crcInit := BitVec.xor_zero

theorem crc8_append (s t : List Byte) : crc8 (s ++ t) = t.foldl crc8Step (crc8 s) := by
  simp only [crc8_eq_foldl, List.foldl_append]

theorem crc8_concat (s : List Byte) (x : Byte) : crc8 (s ++ [x]) = crc8Step (crc8 s) x :=
  crc8_append s [x]

/-- The CRC of a sequence and its own CRC is 0x00, and no other byte does that (R76). -/
theorem crc8_concat_eq_zero_iff {s : List Byte} {x : Byte} : crc8 (s ++ [x]) = 0x00 ↔ x = crc8 s := by
  rw [crc8_concat, crc8Step_eq_zero_iff]

theorem foldl_crc8Step_xor {s t : List Byte} (h : s.length = t.length) (c d : Byte) :
    (List.zipWith (· ^^^ ·) s t).foldl crc8Step (c ^^^ d) =
      s.foldl crc8Step c ^^^ t.foldl crc8Step d := by
  induction s generalizing t c d with
  | nil =>
    obtain rfl := List.length_eq_zero_iff.mp h.symm
    rfl
  | cons x s ih =>
    match t, h with
    | y :: t, h =>
      simp only [List.zipWith_cons_cons, List.foldl_cons, crc8Step_xor]
      exact ih (Nat.succ.inj h) _ _

/-- Different accumulators stay different over the same bytes. -/
theorem foldl_crc8Step_injective (t : List Byte) : Function.Injective (t.foldl crc8Step ·) := by
  induction t with
  | nil => exact Function.injective_id
  | cons x t ih => exact ih.comp (crc8Step_left_injective x)

/-! ## The table form, the laws and the errors detected -/

/-- The table lists the eight shifts of every byte, in order (R72). -/
theorem crcTable_eq_ofFn : crcTable = List.ofFn fun i : Fin 256 => crcShifts 8 (BitVec.ofFin i) := by
  decide +kernel

theorem getElem?_crcTable (x : Byte) : crcTable[x.toNat]? = some (crcShifts 8 x) := by
  rw [crcTable_eq_ofFn, List.getElem?_ofFn, dif_pos x.isLt]
  rfl

/-- Settles O15: the table lists the eight shifts of every byte, which lose nothing. -/
theorem crcTableForm : Obligations.CrcTableForm := by
  refine ⟨fun c b => getElem?_crcTable (c ^^^ b), fun i => ?_, ?_, ?_⟩
  · simp [getElem?_crcTable, crc8Step]
  · rw [crcTable_eq_ofFn, List.length_ofFn]
  · rw [crcTable_eq_ofFn, List.nodup_ofFn]
    exact (crcShifts_injective 8).comp fun _ _ => congrArg BitVec.toFin

/-- Settles O16: the CRC is a fold of a step that is linear and loses nothing. -/
theorem crcLaws : Obligations.CrcLaws := by
  have hhdr : crc8 [0x24, 0x43] = 0x34 := by decide +kernel
  have hzero : crc8 [0x00] = 0x00 := (crc8_concat_eq_zero_iff (s := [])).mpr rfl
  refine ⟨crc8_append, hhdr, fun t => by rw [crc8_append, hhdr], fun s t h => ?_, fun n => ?_,
    fun s x => crc8_concat_eq_zero_iff, fun s => by rw [crc8_append, hzero, crc8_eq_foldl]⟩
  · simp only [crc8_eq_foldl]
    exact foldl_crc8Step_xor h crcInit crcInit
  · induction n with
    | zero => rfl
    | succ n ih => rw [List.replicate_succ', crc8_concat, ih, crc8Step_self]

/-- Sequences that differ in one byte have different CRCs: the step with that byte tells them apart, and no
later step loses the difference (R77). -/
theorem crc8_ne_of_byte_ne (u v : List Byte) {x y : Byte} (h : x ≠ y) :
    crc8 (u ++ [x] ++ v) ≠ crc8 (u ++ [y] ++ v) := by
  rw [crc8_append _ v, crc8_append _ v, crc8_concat, crc8_concat]
  exact (foldl_crc8Step_injective v).ne ((crc8Step_right_injective _).ne h)

/-- In a valid buffer the stop marker stands at the end, and the CRC of all before it is 0x00 (R76, R103). -/
theorem Codec.stop_and_residue_of_valid {c : Codec} (h : c.valid = true) :
    c.buf.read (c.len - 2) = stop0 ∧ c.buf.read (c.len - 1) = stop1 ∧ crc8 (c.slice 0 (c.len - 2)) = 0x00 := by
  have hlen := Codec.len_bounds_of_valid h
  simp only [Codec.valid, Bool.and_eq_true, decide_eq_true_eq] at h
  obtain ⟨⟨⟨_, h0⟩, h1⟩, hk⟩ := h
  refine ⟨h0, h1, ?_⟩
  rw [show c.len - 2 = c.len - 3 + 1 by omega, c.slice_split (Nat.zero_le _) (Nat.le_succ (c.len - 3)),
    c.slice_one]
  exact crc8_concat_eq_zero_iff.mpr hk.symm

/-- Copies of the block that differ in one cell of a stretch differ in its CRC. -/
theorem Codec.crc8_slice_ne {c d : Codec} {a n : Nat} (ha : a < n) (hne : d.buf.read a ≠ c.buf.read a)
    (h : ∀ x, x < n → x ≠ a → d.buf.read x = c.buf.read x) : crc8 (d.slice 0 n) ≠ crc8 (c.slice 0 n) := by
  have hsplit (e : Codec) : e.slice 0 n = e.slice 0 a ++ [e.buf.read a] ++ e.slice (a + 1) n := by
    rw [e.slice_split (Nat.zero_le (a + 1)) ha, e.slice_split (Nat.zero_le a) (Nat.le_succ a), e.slice_one]
  have hbefore : d.slice 0 a = c.slice 0 a := Codec.slice_congr fun x _ hx => h x (by omega) (by omega)
  have hafter : d.slice (a + 1) n = c.slice (a + 1) n := Codec.slice_congr fun x _ hx => h x hx (by omega)
  rw [hsplit d, hsplit c, hbefore, hafter]
  exact crc8_ne_of_byte_ne _ _ hne

/-- Settles O17: were both buffers valid, their stop markers would agree, and so would the CRCs of what stands
before them. -/
theorem oneByteErrorDetected : Obligations.OneByteErrorDetected := by
  refine ⟨fun u v _ _ h => crc8_ne_of_byte_ne u v h, fun c d a hc hl ha hne hsame => ?_⟩
  by_contra hd
  obtain ⟨hc0, hc1, hcres⟩ := Codec.stop_and_residue_of_valid hc
  obtain ⟨hd0, hd1, hdres⟩ := Codec.stop_and_residue_of_valid (Bool.eq_true_of_not_eq_false hd)
  rw [hl] at hd0 hd1 hdres
  have h2 : a ≠ c.len - 2 := fun h => hne (by rw [h, hd0, hc0])
  have h1 : a ≠ c.len - 1 := fun h => hne (by rw [h, hd1, hc1])
  exact Codec.crc8_slice_ne (by omega) hne (fun x hx => hsame x (by omega)) (hdres.trans hcres.symm)

/-! ## The operations of the CRC-8 generator -/

theorem exec_crcClr (s : State) : exec .crcClr s = .next (s.setCodec { s.codec with crc := 0x00 }) := rfl

theorem exec_crcUpd (b : Byte) (s : State) :
    exec (.crcUpd b) s = .next (s.setCodec { s.codec with crc := crc8Step s.codec.crc b }) := rfl

theorem exec_crcRd (s : State) : exec .crcRd s = .next (s.reply (.byte s.codec.crc)) := by
  rw [← BitVec.xor_zero (x := s.codec.crc)]
  rfl

/-- Settles O12, by the decoder and the rule of CRC.CLR. -/
theorem crcClrClears : Obligations.CrcClrClears :=
  ⟨fun d => decodeOp_opWord 0x0 d [], fun s =>
    ⟨_, exec_crcClr s, s.codec_setCodec _, rfl, exec_othersKept (exec_crcClr s)⟩⟩

/-- Settles O13, by the decoder and the rule of CRC.UPD. -/
theorem crcUpdSteps : Obligations.CrcUpdSteps :=
  ⟨fun b => decodeOp_opWord 0x1 b [], by decide, fun b s =>
    ⟨_, exec_crcUpd b s, s.codec_setCodec _, rfl, exec_othersKept (exec_crcUpd b s)⟩⟩

/-- Updates with the bytes of a sequence fold the step over it. -/
theorem execAll_crcUpd_append (bs : List Byte) (is : List Instr) (s : State) :
    execAll (bs.map .crcUpd ++ is) s =
      execAll is (s.setCodec { s.codec with crc := bs.foldl crc8Step s.codec.crc }) := by
  induction bs generalizing s with
  | nil => rw [List.map_nil, List.nil_append, List.foldl_nil, s.setCodec_codec]
  | cons b bs ih =>
    rw [List.map_cons, List.cons_append, execAll_cons_of_next (exec_crcUpd b s), ih,
      State.setCodec_setCodec, State.codec_setCodec, List.foldl_cons]

/-- `CRC.OF` leaves the CRC of the sequence in the accumulator and returns it (R60). -/
theorem execAll_crcOfOps (bs : List Byte) (s : State) :
    execAll (crcOfOps bs) s =
      .next ((s.setCodec { s.codec with crc := crc8 bs }).reply (.byte (crc8 bs))) := by
  rw [crcOfOps, List.cons_append, execAll_cons_of_next (exec_crcClr s), execAll_crcUpd_append,
    execAll_cons_of_next (exec_crcRd _), State.setCodec_setCodec, State.codec_setCodec, State.codec_setCodec,
    crc8_eq_foldl]
  rfl

/-- Settles O14: `CRC.OF` is CRC.CLR, the updates and CRC.RD, each with its rule. -/
theorem crcRdReturns : Obligations.CrcRdReturns :=
  ⟨fun d => decodeOp_opWord 0x2 d [], fun s =>
    ⟨_, exec_crcRd s, rfl, rfl, exec_othersKept (exec_crcRd s)⟩, fun bs s =>
    ⟨_, execAll_crcOfOps bs s, s.codec_setCodec _, rfl, execAll_othersKept (execAll_crcOfOps bs s)⟩⟩

end Sys2Proof.Machine

/-! ## The framer from its first byte to a completed packet -/

namespace Sys2Proof.Machine

section PacketStretch
variable {P : Params} {d : Codec} {x k : Byte} {p : List Byte}

theorem Codec.phase_hunt0 (h : d.len = 0) : d.phase P = .hunt0 := if_pos h

theorem Codec.phase_hunt1 (h : d.len = 1) : d.phase P = .hunt1 := by
  rw [Codec.phase, if_neg (by omega), if_pos h]

theorem Codec.phase_cmd (h : d.len = 2) : d.phase P = .cmd := by
  rw [Codec.phase, if_neg (by omega), if_neg (by omega), if_pos h]

/-- Once three bytes of a packet are buffered its command is known (R101). -/
theorem Codec.cmd_of_bytes_prefix (h : d.bytes <+: packetBytes x p k) (h3 : 3 ≤ d.len) : d.cmd = x := by
  obtain ⟨rest, hrest⟩ := h
  have hcmd : d.bytes[2]? = some x := by
    rw [← List.getElem?_append_left (l₂ := rest) (by rw [d.length_bytes]; omega), hrest]
    rfl
  exact (if_pos (by omega)).trans (Codec.read_of_bytes hcmd)

/-- And so is its expected length (R102). -/
theorem Codec.xlen_of_bytes_prefix (hl : p.length = ext x) (h : d.bytes <+: packetBytes x p k)
    (h3 : 3 ≤ d.len) : d.xlen = 6 + p.length := by
  rw [Codec.xlen, Codec.cmd_of_bytes_prefix h h3, hl]

/-- A buffer that holds the beginning of a packet is not valid, and its phase tells how much of it (R88, R89). -/
theorem Codec.phase_of_bytes_prefix (hl : p.length = ext x) (h : d.bytes <+: packetBytes x p k)
    (hlt : d.len < 6 + p.length) :
    d.valid = false ∧ d.phase P =
      if d.len = 0 then .hunt0 else if d.len = 1 then .hunt1 else if d.len = 2 then .cmd else .body := by
  by_cases h3 : 3 ≤ d.len
  · have hx : d.len < d.xlen := by rwa [Codec.xlen_of_bytes_prefix hl h h3]
    refine ⟨Codec.not_valid_of_len_ne (Nat.ne_of_lt hx), ?_⟩
    rw [Codec.phase_body P h3 hx, if_neg (by omega), if_neg (by omega), if_neg (by omega)]
  · refine ⟨Codec.not_valid_of_lt (by omega), ?_⟩
    split_ifs with h0 h1 h2
    · exact Codec.phase_hunt0 h0
    · exact Codec.phase_hunt1 h1
    · exact Codec.phase_cmd h2
    · omega

end PacketStretch

/-- Settles O28: every stretch of a packet that has been fed is what is buffered, and the whole of it is
valid. -/
theorem packetRoundTrip : Obligations.PacketRoundTrip := by
  intro P c x p hP hwf h0 hl
  refine ⟨fun n hn => ?_, ?_⟩
  · have hprefix : (enc x p).take n <+: enc x p := List.take_prefix n _
    have hbytes := Codec.feeds_bytes_of_prefix hP hwf h0 hl hprefix
    have hlen : (c.feeds P ((enc x p).take n)).len = n := by
      rw [← Codec.length_bytes, hbytes, List.length_take, enc, Laws.length_packetBytes]
      omega
    obtain ⟨hvalid, hphase⟩ :=
      Codec.phase_of_bytes_prefix (P := P) hl (by rwa [hbytes]) (by rwa [hlen])
    exact ⟨hvalid, hlen, by rwa [hlen] at hphase⟩
  · have hbytes := Codec.feeds_bytes_of_prefix hP hwf h0 hl (List.prefix_refl (enc x p))
    obtain ⟨hcmd, hvalid, hpay⟩ := Codec.derived_of_bytes_eq_enc hl hbytes
    exact ⟨Codec.phase_done P hvalid, hvalid, hcmd, hpay, hbytes⟩

section Window
variable (P : Params) (b : Byte) {c : Codec}

/-- The second byte of the header window (R84). -/
theorem Codec.feed_hunt1 (hP : P.Legal) (h : c.len = 1) :
    c.feed P b = if b = 0x43 then c.append b else if P.hdrMismatchClears then c.empty else c := by
  rw [Codec.feed_window P b hP (by omega), h]
  rfl

/-- Garbage without the header leaves at most one byte buffered, and then it ends in the first header
byte (R91). -/
theorem Codec.feeds_garbage_cases {g : List Byte} (hP : P.Legal) (hclears : P.hdrMismatchClears = true)
    (h0 : c.len = 0) (hg : ¬ [0x24, 0x43] <:+: g) :
    (c.feeds P g).len = 0 ∨ ((c.feeds P g).len = 1 ∧ g.getLast? = some 0x24) := by
  induction g using List.reverseRecOn with
  | nil => exact .inl h0
  | append_singleton g b ih =>
    rw [Codec.feeds_concat, List.getLast?_concat]
    rcases ih fun h => hg (h.trans (List.prefix_append g [b]).isInfix) with hlen | ⟨hlen, hlast⟩
    · rw [Codec.feed_hunt0 P b hP hlen]
      split
      · next hb => exact .inr ⟨congrArg (· + 1) hlen, congrArg some hb⟩
      · exact .inl hlen
    · have hb : b ≠ 0x43 := by
        rintro rfl
        obtain ⟨g', rfl⟩ := List.getLast?_eq_some_iff.mp hlast
        exact hg ⟨g', [], by simp⟩
      rw [Codec.feed_hunt1 P b hP hlen, if_neg hb, if_pos hclears]
      exact .inl rfl

end Window

/-- Settles O30: no byte of the garbage is left in the buffer, which is where a packet is received from. -/
theorem garbageThenPacketReceived : Obligations.GarbageThenPacketReceived := by
  intro P c g x p hP hclears hwf h0 hg hlast hl
  have hempty : (c.feeds P g).len = 0 :=
    (Codec.feeds_garbage_cases P hP hclears h0 hg).resolve_right fun h => hlast h.2
  obtain ⟨_, _, hvalid, hcmd, hpay, _⟩ := packetRoundTrip P _ x p hP (Codec.feeds_wf P g hwf) hempty hl
  exact ⟨hempty, by rw [Codec.feeds_append]; exact ⟨hvalid, hcmd, hpay⟩⟩

/-! ## FRM.FEED, step by step -/

/-- FRM.FEED is the feed on the named copy (R80). -/
theorem exec_frmFeed (b : Byte) (s : State) :
    exec (.frmFeed b) s = .next (s.setCodec (s.codec.feed params b)) := rfl

/-- Settles O21: an emptied buffer meets the header window, and one of 39 bytes is too long to be valid. -/
theorem overrunDiscards : Obligations.OverrunDiscards := by
  intro b s hwf
  refine ⟨fun hover => ⟨_, exec_frmFeed b s, ?_⟩, fun hlen => ⟨_, exec_frmFeed b s, ?_⟩⟩ <;>
    rw [State.codec_setCodec]
  · have hdiscard : s.codec.discard params = s.codec.empty := Codec.discard_of_lt params _ hover
    refine ⟨Codec.feed_over_len b params_legal hover, ?_, fun a ha => Codec.feed_read_of_ne _ _ _ ?_⟩
    · rintro rfl
      rw [Codec.feed_over params _ hover, Codec.feed_hunt0 params _ params_legal (Codec.empty_len _), if_pos rfl]
      exact Codec.append_read_len (c := s.codec.empty) _ hwf
    · rw [hdiscard, Codec.empty_len]
      omega
  · rw [Codec.feed_append params b (by simp [hlen]) (by omega) (Codec.not_valid_of_gt (by omega)),
      Codec.append_len, hlen]
    exact ⟨rfl, hlen ▸ Codec.append_read_len b hwf⟩

/-- Settles O22, by the ways in which an instruction can act: feeding leaves a completed packet as it is, and
only FRM.CLR empties the buffer. -/
theorem completedPacketHeld : Obligations.CompletedPacketHeld := by
  intro s hv
  refine ⟨fun b => ?_, fun i t hi h => ?_, _, rfl, ?_⟩
  · rw [exec_frmFeed, Codec.feed_valid params b params_legal hv, State.setCodec_codec]
  · cases exec_form i with
    | accumulate f _ acts =>
      cases (acts s).symm.trans h
      rw [State.codec_setCodec]
      exact ⟨rfl, rfl, hv⟩
    | clear which _ => exact absurd which hi
    | feed bs _ acts =>
      cases (acts s).symm.trans h
      rw [State.receive_codec, Codec.feeds_valid params bs params_legal hv]
      exact ⟨rfl, rfl, hv⟩
    | answer q _ _ acts =>
      cases (acts s).symm.trans h
      exact ⟨rfl, rfl, hv⟩
    | refuse r acts => cases (acts s).symm.trans h
  · rw [State.codec_setCodec]
    exact Codec.not_valid_empty _

/-- Settles O23: the two bytes of the header window, each with its rule. -/
theorem headerWindow : Obligations.HeaderWindow := by
  refine ⟨fun P b c hP => ⟨Codec.feed_hunt0 P b hP, Codec.feed_hunt1 P b hP, fun h0 => ?_⟩, rfl,
    exec_frmFeed⟩
  have h1 : (c.append 0x24).len = 1 := congrArg (· + 1) h0
  have hfirst : c.feed P 0x24 = c.append 0x24 := by rw [Codec.feed_hunt0 P _ hP h0, if_pos rfl]
  have hsecond : (c.append 0x24).feed P 0x24 =
      if P.hdrMismatchClears then (c.append 0x24).empty else c.append 0x24 := by
    rw [Codec.feed_hunt1 P _ hP h1, if_neg (by decide)]
  rw [Codec.feeds_cons, Codec.feeds_cons, Codec.feeds_cons, Codec.feeds_nil, hfirst, hsecond]
  split
  · rw [Codec.feed_hunt0 P _ hP (Codec.empty_len _), if_neg (by decide)]
    rfl
  · rw [Codec.feed_hunt1 P _ hP h1, if_pos rfl, Codec.append_len, h1]

/-- The third byte becomes the command (R85, R101). -/
theorem Codec.append_cmd_of_len_eq_two {c : Codec} (b : Byte) (hwf : c.buf.wf) (h : c.len = 2) :
    (c.append b).cmd = b := by
  rw [Codec.cmd, if_pos (by rw [Codec.append_len]; omega)]
  exact h ▸ Codec.append_read_len b hwf

/-- Settles O24, by the rules of the append. -/
theorem appendStoresByte : Obligations.AppendStoresByte := by
  intro b s hwf h2 h39 hv
  have hothers := exec_othersKept (exec_frmFeed b s)
  refine ⟨_, exec_frmFeed b s, ?_⟩
  rw [Codec.feed_append params b h39 h2 hv] at hothers ⊢
  rw [State.codec_setCodec]
  exact ⟨rfl, Codec.append_bytes b hwf, rfl, fun _ => Codec.append_read_of_ne b _,
    Codec.append_cmd_of_len_eq_two b hwf, rfl, hothers⟩

/-! ## A failed packet -/

section Failed
variable {P : Params} {c : Codec}

/-- Past its expected length a buffer that is not valid takes every byte and stays so (R86). -/
theorem Codec.feed_failed (b : Byte) (hx : c.xlen ≤ c.len) (hv : c.valid = false) (hl : c.len ≤ P.maxLen) :
    c.feed P b = c.append b ∧ (c.append b).xlen = c.xlen ∧ (c.append b).valid = false := by
  have hmin := c.xlen_cases
  have hxlen : (c.append b).xlen = c.xlen := Codec.append_xlen b (by omega)
  refine ⟨Codec.feed_append P b hl (by omega) hv, hxlen, Codec.not_valid_of_len_ne ?_⟩
  rw [hxlen, Codec.append_len]
  omega

/-- So do the bytes of a sequence, up to `MAXLEN + 1` (R86). -/
theorem Codec.feeds_failed (bs : List Byte) (hwf : c.buf.wf) (hx : c.xlen ≤ c.len) (hv : c.valid = false)
    (hl : c.len + bs.length ≤ P.maxLen + 1) :
    (c.feeds P bs).bytes = c.bytes ++ bs ∧ (c.feeds P bs).xlen = c.xlen ∧ (c.feeds P bs).valid = false := by
  induction bs generalizing c with
  | nil => exact ⟨(List.append_nil _).symm, rfl, hv⟩
  | cons b bs ih =>
    rw [List.length_cons] at hl
    obtain ⟨hfeed, hxlen, hvalid⟩ := Codec.feed_failed (P := P) b hx hv (by omega)
    obtain ⟨hbytes, hxlen', hvalid'⟩ := ih (Codec.append_wf b hwf)
      (by rw [hxlen, Codec.append_len]; omega) hvalid (by rw [Codec.append_len]; omega)
    rw [Codec.feeds_cons, hfeed]
    refine ⟨?_, hxlen'.trans hxlen, hvalid'⟩
    rw [hbytes, Codec.append_bytes b hwf, List.append_assoc, List.singleton_append]

end Failed

/-- Settles O25, by what feeding does to a failed packet, and by the overrun discard at its end. -/
theorem failedPacketNeverValidates : Obligations.FailedPacketNeverValidates := by
  intro P c bs hP hwf hx hv hl
  obtain ⟨hbytes, hxlen, hvalid⟩ := Codec.feeds_failed bs hwf hx hv hl
  have hlen : (c.feeds P bs).len = c.len + bs.length := by
    rw [← Codec.length_bytes, hbytes, List.length_append, Codec.length_bytes]
  refine ⟨hlen, hbytes, hxlen, hvalid, fun hfull b => ?_⟩
  have hover : P.maxLen < (c.feeds P bs).len := by omega
  exact ⟨Codec.feed_over P b hover, Codec.feed_over_len b hP hover⟩

/-! ## FRM.CLR -/

/-- FRM.CLR empties the buffer of the named copy (R87). -/
theorem exec_frmClr (s : State) : exec .frmClr s = .next (s.setCodec s.codec.empty) := rfl

/-- Settles O26, by the rule of FRM.CLR; the packet that follows is a serializer output. -/
theorem frmClrEmpties : Obligations.FrmClrEmpties := by
  refine ⟨fun d => decodeOp_opWord 0x5 d [], fun s => ⟨_, exec_frmClr s, ?_⟩⟩
  rw [exec_frmClr, State.codec_setCodec, State.setCodec_setCodec]
  refine ⟨rfl, Codec.not_valid_empty _, rfl, rfl, rfl, exec_othersKept (exec_frmClr s), rfl, fun hwf => ?_⟩
  have henc : [0x24, 0x43, 0x54, 0x27, 0x0A, 0x0D] = enc 0x54 [] := by decide +kernel
  obtain ⟨_, _, hvalid, _⟩ := packetRoundTrip params s.codec.empty 0x54 [] params_legal hwf rfl rfl
  rwa [henc]

/-! ## The phases as a state machine -/

section Phases
variable {P : Params} {c : Codec}

/-- The phase of a good copy meets its own condition (R88). -/
theorem Codec.Ok.phaseHolds_phase (h : c.Ok P) : PhaseHolds P c (c.phase P) := by
  have hle : c.len ≤ P.maxLen + 1 := h.len_le
  unfold Codec.phase
  split_ifs with h0 h1 h2 hv hx hm
  · exact h0
  · exact h1
  · exact h2
  · exact hv
  · exact ⟨by omega, hx⟩
  · exact ⟨by omega, hm, by simpa using hv⟩
  · show c.len = P.maxLen + 1
    omega

/-- No other phase has a condition that holds (R88). -/
theorem Codec.phase_eq_of_phaseHolds (hP : P.Legal) {ph : Phase} (h : PhaseHolds P c ph) : c.phase P = ph := by
  match ph, h with
  | .hunt0, h => exact Codec.phase_hunt0 h
  | .hunt1, h => exact Codec.phase_hunt1 h
  | .cmd, h => exact Codec.phase_cmd h
  | .body, ⟨h3, hx⟩ => exact Codec.phase_body P h3 hx
  | .done, h => exact Codec.phase_done P h
  | .dead, ⟨hx, hm, hv⟩ => exact Codec.phase_dead P hv hx hm
  | .over, h => exact Codec.phase_over P hP (Nat.lt_of_lt_of_eq (Nat.lt_succ_self _) h.symm)

/-- From HUNT0 the first header byte leads to HUNT1, and any other changes nothing (R88). -/
theorem Codec.feed_from_hunt0 (b : Byte) (hP : P.Legal) (h : c.len = 0) :
    if b = 0x24 then c.feed P b = c.append b ∧ (c.feed P b).phase P = .hunt1 else c.feed P b = c := by
  rw [Codec.feed_hunt0 P b hP h]
  split
  · exact ⟨rfl, Codec.phase_hunt1 (congrArg (· + 1) h)⟩
  · rfl

/-- From HUNT1 the second header byte leads to CMD, and any other back to HUNT0 (R88). -/
theorem Codec.feed_from_hunt1 (b : Byte) (hP : P.Legal) (hclears : P.hdrMismatchClears = true)
    (h : c.len = 1) :
    if b = 0x43 then c.feed P b = c.append b ∧ (c.feed P b).phase P = .cmd
    else c.feed P b = c.empty ∧ (c.feed P b).phase P = .hunt0 := by
  rw [Codec.feed_hunt1 P b hP h, if_pos hclears]
  split
  · exact ⟨rfl, Codec.phase_cmd (congrArg (· + 1) h)⟩
  · exact ⟨rfl, Codec.phase_hunt0 rfl⟩

/-- From CMD every byte is the command, and leads to BODY (R88). -/
theorem Codec.feed_from_cmd (b : Byte) (hP : P.Legal) (hwf : c.buf.wf) (h : c.len = 2) :
    c.feed P b = c.append b ∧ (c.feed P b).cmd = b ∧ (c.feed P b).phase P = .body := by
  have h20 : 20 ≤ P.maxLen := hP
  have hmin := (c.append b).xlen_cases
  rw [Codec.feed_append P b (by omega) (by omega) (Codec.not_valid_of_lt (by omega))]
  refine ⟨rfl, Codec.append_cmd_of_len_eq_two b hwf h, Codec.phase_body P ?_ ?_⟩ <;>
    rw [Codec.append_len] <;> omega

/-- From BODY every byte is appended; at the expected length the packet is complete or has failed (R88). -/
theorem Codec.feed_from_body (b : Byte) (hP : P.Legal) (h3 : 3 ≤ c.len) (hx : c.len < c.xlen) :
    c.feed P b = c.append b ∧ (c.feed P b).xlen = c.xlen ∧
      ((c.feed P b).len < (c.feed P b).xlen → (c.feed P b).phase P = .body) ∧
      ((c.feed P b).len = (c.feed P b).xlen →
        (c.feed P b).phase P = if (c.feed P b).valid then .done else .dead) := by
  have h20 : 20 ≤ P.maxLen := hP
  have hmax := c.xlen_cases
  rw [Codec.feed_append P b (by omega) (by omega) (Codec.not_valid_of_len_ne (Nat.ne_of_lt hx))]
  have hlen := c.append_len b
  refine ⟨rfl, Codec.append_xlen b h3, fun hlt => Codec.phase_body P (by omega) hlt, fun heq => ?_⟩
  split
  · next hv => exact Codec.phase_done P hv
  · next hv => exact Codec.phase_dead P (by simpa using hv) (Nat.le_of_eq heq.symm) (by omega)

/-- From DEAD every byte is appended, and the packet stays failed until it overruns (R86, R88). -/
theorem Codec.feed_from_dead (b : Byte) (hP : P.Legal) (hx : c.xlen ≤ c.len) (hl : c.len ≤ P.maxLen)
    (hv : c.valid = false) :
    c.feed P b = c.append b ∧ ((c.feed P b).len ≤ P.maxLen → (c.feed P b).phase P = .dead) ∧
      ((c.feed P b).len = P.maxLen + 1 → (c.feed P b).phase P = .over) := by
  obtain ⟨hfeed, hxlen, hvalid⟩ := Codec.feed_failed (P := P) b hx hv hl
  rw [hfeed]
  refine ⟨rfl, fun hle => Codec.phase_dead P hvalid ?_ hle, fun hfull => Codec.phase_over P hP (by omega)⟩
  rw [hxlen, Codec.append_len]
  omega

/-- From OVER a byte meets an emptied buffer: HUNT1 if it is the first header byte, else HUNT0 (R82, R88). -/
theorem Codec.feed_from_over (b : Byte) (hP : P.Legal) (h : P.maxLen < c.len) :
    if b = 0x24 then c.feed P b = c.empty.append b ∧ (c.feed P b).phase P = .hunt1 ∧ (c.feed P b).len = 1
    else c.feed P b = c.empty ∧ (c.feed P b).phase P = .hunt0 := by
  rw [Codec.feed_over P b h, Codec.feed_hunt0 P b hP (Codec.empty_len c)]
  split
  · exact ⟨rfl, Codec.phase_hunt1 rfl, rfl⟩
  · exact ⟨rfl, Codec.phase_hunt0 rfl⟩

end Phases

/-- Settles O27: the phase is the one whose condition holds, and each row of the table has its rule. -/
theorem phaseTable : Obligations.PhaseTable := by
  intro P c hP hclears hok
  have hphase := hok.phaseHolds_phase
  refine ⟨fun ph => ⟨fun h => (Codec.phase_eq_of_phaseHolds hP h).symm, fun h => h ▸ hphase⟩,
    Codec.phase_hunt0 rfl, fun b => ?_⟩
  generalize c.phase P = ph at hphase ⊢
  match ph, hphase with
  | .hunt0, h => exact Codec.feed_from_hunt0 b hP h
  | .hunt1, h => exact Codec.feed_from_hunt1 b hP hclears h
  | .cmd, h => exact Codec.feed_from_cmd b hP hok.canonical h
  | .body, ⟨h3, hx⟩ => exact Codec.feed_from_body b hP h3 hx
  | .done, h => exact Codec.feed_valid P b hP h
  | .dead, ⟨hx, hl, hv⟩ => exact Codec.feed_from_dead b hP hx hl hv
  | .over, h => exact Codec.feed_from_over b hP (Nat.lt_of_lt_of_eq (Nat.lt_succ_self _) h.symm)

/-! ## A packet with a wrong checksum -/

/-- A packet that fails the checksum has passed the check of its payload length (R50, R52). -/
theorem of_checkPacket_checksum {c : Byte} {p : List Byte} {k : Byte}
    (h : checkPacket c p k = some .checksum) : p.length = ext c ∧ k ≠ crc8 (covered c p) := by
  unfold checkPacket at h
  split at h
  · cases h
  · next hl =>
    split at h
    · next hk => exact ⟨of_not_not hl, hk⟩
    · cases h

/-- Whatever the packet kind (R52, R129). -/
theorem checkPacket_of_illFormed_checksum {i : Instr} {c : Byte} {p : List Byte} {k : Byte}
    (h : i.packet? = some (c, p, k)) (hi : i.illFormed = some .checksum) :
    checkPacket c p k = some .checksum := by
  cases i with
  | pktUnassigned c' k' =>
    cases h
    rw [Instr.illFormed] at hi
    split at hi
    · cases hi
    · exact hi
  | _ => cases h <;> exact hi

/-- A buffer that holds a packet with a wrong checksum is not valid (R103). -/
theorem Codec.not_valid_of_wrong_checksum {d : Codec} {x k : Byte} {p : List Byte}
    (hb : d.bytes = packetBytes x p k) (hk : k ≠ crc8 (covered x p)) : d.valid = false := by
  have hlen : d.len = 6 + p.length := by rw [← d.length_bytes, hb, Laws.length_packetBytes]
  have hcovered : d.slice 0 (d.len - 3) = covered x p := by
    rw [Codec.slice_eq_bytes (Nat.zero_le _) (Nat.sub_le _ _), hb, List.drop_zero, packetBytes,
      List.take_left' (by rw [length_covered]; omega)]
  have hchecksum : d.buf.read (d.len - 3) = k := Codec.read_of_bytes (by
    rw [hb, packetBytes, List.getElem?_append_right (by rw [length_covered]; omega), length_covered,
      show d.len - 3 - (3 + p.length) = 0 by omega]
    rfl)
  simp only [Codec.valid, hcovered, hchecksum, decide_eq_false (Ne.symm hk), Bool.and_false]

/-- Settles O47: the packet is buffered whole, and only its checksum keeps it from being valid. -/
theorem wrongChecksumIsDead : Obligations.WrongChecksumIsDead := by
  intro i c p k s hp hi hwf h0
  obtain ⟨hl, hk⟩ := of_checkPacket_checksum (checkPacket_of_illFormed_checksum hp hi)
  have hbytes := Codec.feeds_bytes_of_prefix params_legal hwf h0 hl (List.prefix_refl (packetBytes c p k))
  refine ⟨_, exec_of_packet? hp s, ?_⟩
  rw [State.receive_codec]
  generalize s.codec.feeds params (packetBytes c p k) = d at hbytes ⊢
  have hprefix : d.bytes <+: packetBytes c p k := hbytes ▸ List.prefix_rfl
  have hlen : d.len = 6 + p.length := by rw [← d.length_bytes, hbytes, Laws.length_packetBytes]
  have hvalid := Codec.not_valid_of_wrong_checksum hbytes hk
  have hxlen := Codec.xlen_of_bytes_prefix hl hprefix (by omega)
  have hmax := d.xlen_cases
  refine ⟨Codec.phase_dead params hvalid (by omega) ?_, hvalid, hbytes,
    Codec.cmd_of_bytes_prefix hprefix (by omega), if_neg (by simp [hvalid])⟩
  rw [params_maxLen]
  omega

/-! ## The four steps of FRM.FEED -/

/-- The hold, the header window and the append, in the order of R80. -/
theorem Codec.accept_eq_steps {P : Params} (b : Byte) (c : Codec) (hclears : P.hdrMismatchClears = true) :
    c.accept P b =
      if c.valid then c
      else if c.len = 0 then if b = 0x24 then c.append b else c
      else if c.len = 1 then if b = 0x43 then c.append b else c.empty
      else c.append b := by
  rw [Codec.accept, if_pos hclears]
  refine if_congr Iff.rfl rfl ?_
  by_cases h0 : c.len = 0
  · rw [if_pos h0, h0, if_pos (by decide), Codec.empty_of_len_eq_zero h0]
    rfl
  · rw [if_neg h0]
    by_cases h1 : c.len = 1
    · rw [if_pos h1, h1, if_pos (by decide)]
      rfl
    · rw [if_neg h1, if_neg (by omega)]

/-- Settles O19: the discard comes first, and the other three steps follow on what it leaves. -/
theorem feedFollowsFourSteps : Obligations.FeedFollowsFourSteps := by
  refine ⟨fun b => decodeOp_opWord 0x4 b [], fun b s =>
    ⟨_, exec_frmFeed b s, rfl, exec_othersKept (exec_frmFeed b s), ?_⟩⟩
  rw [State.codec_setCodec]
  exact Codec.accept_eq_steps b (s.codec.discard params) rfl

end Sys2Proof.Machine

/-! ## The queries -/

namespace Sys2Proof.Machine

/-- FRM.CMD returns the command (R101). -/
theorem exec_frmCmd (s : State) : exec .frmCmd s = .next (s.reply (.byte s.codec.cmd)) := rfl

/-- FRM.XLEN returns the expected length (R102). -/
theorem exec_frmXlen (s : State) : exec .frmXlen s = .next (s.reply (.length s.codec.xlen)) := rfl

/-- FRM.VALID returns whether the buffer is valid (R103). -/
theorem exec_frmValid (s : State) : exec .frmValid s = .next (s.reply (.bit s.codec.valid)) := rfl

/-- FRM.PAY returns the payload (R104). -/
theorem exec_frmPay (s : State) : exec .frmPay s = .next (s.reply (.bytes s.codec.pay)) := rfl

/-- Settles O31: each query returns a derived value, and those depend on the buffered bytes alone. -/
theorem queriesArePure : Obligations.QueriesArePure := by
  intro i hi s
  have hderived {t : State} (hl : t.codec.len = s.codec.len)
      (hcells : ∀ a, a < s.codec.len → t.codec.buf.read a = s.codec.buf.read a) :=
    Codec.derived_congr hl fun a ha => hcells a (hl ▸ ha)
  simp only [List.mem_cons, List.not_mem_nil, or_false] at hi
  rcases hi with rfl | rfl | rfl | rfl
  · refine ⟨_, exec_frmCmd s, fun t hl hcells => ?_⟩
    obtain ⟨hcmd, _, _, _⟩ := hderived hl hcells
    rw [exec_frmCmd, hcmd]
  · refine ⟨_, exec_frmXlen s, fun t hl hcells => ?_⟩
    obtain ⟨_, hxlen, _, _⟩ := hderived hl hcells
    rw [exec_frmXlen, hxlen]
  · refine ⟨_, exec_frmValid s, fun t hl hcells => ?_⟩
    obtain ⟨_, _, hvalid, _⟩ := hderived hl hcells
    rw [exec_frmValid, hvalid]
  · refine ⟨_, exec_frmPay s, fun t hl hcells => ?_⟩
    obtain ⟨_, _, _, hpay⟩ := hderived hl hcells
    rw [exec_frmPay, hpay]

section Derived
variable {c : Codec}

/-- What a valid buffer is: length, stop marker and checksum agree (R103). -/
theorem Codec.valid_iff :
    c.valid = true ↔ c.len = c.xlen ∧ c.buf.read (c.len - 2) = stop0 ∧ c.buf.read (c.len - 1) = stop1 ∧
      crc8 (c.slice 0 (c.len - 3)) = c.buf.read (c.len - 3) := by
  simp only [Codec.valid, Bool.and_eq_true, decide_eq_true_eq, and_assoc]

/-- While no command is in, the sentinel stands for it (R101). -/
theorem Codec.cmd_of_len_le_two (h : c.len ≤ 2) : c.cmd = 0x00 := if_neg (by omega)

/-- The expected length by the command (R102). -/
theorem Codec.xlen_eq : c.xlen =
    if c.cmd ∈ [0x42, 0x39, 0x40] then 8 else if c.cmd ∈ [0x58, 0x36] then 20 else 6 := by
  simp only [Codec.xlen, ext, List.mem_cons, List.not_mem_nil, or_false]
  split_ifs <;> rfl

/-- The payload of a valid buffer has the length that the command dictates (R104). -/
theorem Codec.length_pay_of_valid (h : c.valid = true) :
    c.pay.length = c.len - 6 ∧ c.pay.length = ext c.cmd := by
  have hlen : c.len = 6 + ext c.cmd := Codec.len_eq_xlen_of_valid h
  rw [Codec.pay, if_pos h, Codec.length_slice]
  omega

/-- From the header on, a stretch of cells is a command and its payload, as the checksum covers them (R78). -/
theorem Codec.slice_eq_covered (h0 : c.buf.read 0 = hdr0) (h1 : c.buf.read 1 = hdr1) {n : Nat} (hn : 3 ≤ n) :
    c.slice 0 n = covered (c.buf.read 2) (c.slice 3 n) := by
  have hfront : c.slice 0 3 = [c.buf.read 0, c.buf.read 1, c.buf.read 2] := rfl
  rw [c.slice_split (Nat.zero_le 3) hn, hfront, h0, h1]
  rfl

/-- A valid buffer that begins with the header is the serializer's output for its command and payload (R106). -/
theorem Codec.bytes_eq_enc_of_valid (h : c.valid = true) (h0 : c.buf.read 0 = hdr0) (h1 : c.buf.read 1 = hdr1) :
    c.bytes = enc (c.buf.read 2) (c.slice 3 (c.len - 3)) := by
  obtain ⟨hlen, _⟩ := Codec.len_bounds_of_valid h
  obtain ⟨_, hstop0, hstop1, hcrc⟩ := Codec.valid_iff.mp h
  have htrailer : c.slice (c.len - 3) c.len =
      [c.buf.read (c.len - 3), c.buf.read (c.len - 2), c.buf.read (c.len - 1)] := by
    obtain ⟨n, hn⟩ := Nat.exists_eq_add_of_le' (show 3 ≤ c.len by omega)
    rw [hn, Codec.slice, Nat.add_sub_cancel, Nat.add_sub_cancel_left]
    rfl
  have hcovered := Codec.slice_eq_covered h0 h1 (show 3 ≤ c.len - 3 by omega)
  rw [Codec.bytes, c.slice_split (Nat.zero_le _) (Nat.sub_le c.len 3), htrailer, ← hcrc, hstop0, hstop1, hcovered]
  rfl

end Derived

/-- Settles O36: the invariant gives a valid buffer its header, and what the serializer puts out is valid. -/
theorem validIffSerializerOutput : Obligations.ValidIffSerializerOutput := by
  intro c hok
  constructor
  · intro h
    obtain ⟨hlen, _⟩ := Codec.len_bounds_of_valid h
    have hcmd : c.cmd = c.buf.read 2 := if_pos (by omega)
    obtain ⟨hpay, hext⟩ := Codec.length_pay_of_valid h
    exact ⟨hlen, Codec.bytes_eq_enc_of_valid h (hok.header0 (by omega)) (hok.header1 (by omega)),
      by rw [← hpay, hext, hcmd]⟩
  · rintro ⟨_, hbytes, hext⟩
    have hl : (c.slice 3 (c.len - 3)).length = ext (c.buf.read 2) := by
      rw [Codec.length_slice, ← hext]
      omega
    obtain ⟨_, hvalid, _⟩ := Codec.derived_of_bytes_eq_enc hl hbytes
    exact hvalid

/-- Settles O32, by the decoder and the rule of FRM.CMD. -/
theorem frmCmdReturns : Obligations.FrmCmdReturns :=
  ⟨fun d => decodeOp_opWord 0x6 d [], fun s =>
    ⟨_, exec_frmCmd s, rfl, exec_othersKept (exec_frmCmd s), rfl⟩⟩

/-- Settles O33, by the decoder, the rule of FRM.XLEN and the expected length by the command. -/
theorem frmXlenReturns : Obligations.FrmXlenReturns := by
  refine ⟨fun d => decodeOp_opWord 0x7 d [], fun s =>
    ⟨_, _, exec_frmXlen s, rfl, exec_othersKept (exec_frmXlen s), rfl, Codec.xlen_eq, fun h => ?_⟩⟩
  rw [Codec.xlen, Codec.cmd_of_len_le_two h]
  rfl

/-- Settles O34, by the decoder, the rule of FRM.VALID and what a valid buffer is. -/
theorem frmValidReturns : Obligations.FrmValidReturns :=
  ⟨fun d => decodeOp_opWord 0x8 d [], fun s =>
    ⟨_, _, exec_frmValid s, rfl, exec_othersKept (exec_frmValid s), rfl, Codec.valid_iff⟩⟩

/-- Settles O35, by the decoder, the rule of FRM.PAY and the length of a valid buffer's payload. -/
theorem frmPayReturns : Obligations.FrmPayReturns :=
  ⟨fun d => decodeOp_opWord 0x9 d [], fun s =>
    ⟨_, _, exec_frmPay s, rfl, exec_othersKept (exec_frmPay s), rfl, rfl, Codec.length_pay_of_valid⟩⟩

end Sys2Proof.Machine

/-! ## The serializer -/

namespace Sys2Proof.Machine

section EncLaws
variable (c : Byte) (p : List Byte)

/-- Behind what the checksum covers stand the checksum and the stop marker (R33, R110). -/
theorem drop_enc : (enc c p).drop (3 + p.length) = [crc8 (covered c p), stop0, stop1] :=
  List.drop_left' (length_covered c p)

/-- All but the stop marker is what the checksum covers, followed by the checksum (R110). -/
theorem take_enc_before_stop : (enc c p).take (4 + p.length) = covered c p ++ [crc8 (covered c p)] := by
  have hsplit : enc c p = (covered c p ++ [crc8 (covered c p)]) ++ [stop0, stop1] :=
    List.append_cons (covered c p) _ _
  rw [hsplit]
  exact List.take_left' (by rw [List.length_append, length_covered, List.length_singleton]; omega)

end EncLaws

/-- The length of a packet tells that of its payload, and what is before the checksum the rest (R115). -/
theorem enc_injective {c d : Byte} {p q : List Byte} (h : enc c p = enc d q) : c = d ∧ p = q := by
  have hlen : p.length = q.length := by
    have := congrArg List.length h
    rw [enc, enc, Laws.length_packetBytes, Laws.length_packetBytes] at this
    omega
  have hcovered : covered c p = covered d q := by rw [← take_enc, ← take_enc, hlen, h]
  simpa [covered] using hcovered

/-- Only an empty buffer is in HUNT0 (R88). -/
theorem Codec.len_eq_zero_of_phase_hunt0 {P : Params} {d : Codec} (h : d.phase P = .hunt0) : d.len = 0 := by
  by_contra h0
  rw [Codec.phase, if_neg h0] at h
  split_ifs at h

/-- Settles O41: injectivity by the lengths, the first and last bytes by the layout, the residue by the CRC
of a sequence and its own CRC, and the round trip by that of the framer. -/
theorem serializerLaws : Obligations.SerializerLaws := by
  refine ⟨fun c p d q => enc_injective, fun c p => ⟨take_enc c p, ?_⟩, fun c p => ?_,
    fun k c p hwf hphase hl => ?_⟩
  · rw [drop_enc, take_enc]
  · rw [take_enc_before_stop, crc8_concat_eq_zero_iff]
  · obtain ⟨_, hdone, _, hcmd, hpay, _⟩ :=
      packetRoundTrip params k c p params_legal hwf (Codec.len_eq_zero_of_phase_hunt0 hphase) hl
    exact ⟨hdone, hcmd, hpay⟩

/-- SER.ENC returns the packet, if the payload can be presented (R111). -/
theorem exec_serEnc (c : Byte) {p : List Byte} (h : p.length ≤ 33) (s : State) :
    exec (.serEnc c p) s = .next (s.reply (.bytes (enc c p))) := if_pos h

/-- Settles O38, by the decoder, the rule of SER.ENC and the layout of a packet. -/
theorem serEncReturnsPacket : Obligations.SerEncReturnsPacket := by
  refine ⟨fun c p => decodeOp_opWord 0xC c p, fun c p s h =>
    ⟨_, exec_serEnc c h s, rfl, exec_othersKept (exec_serEnc c h s), ?_⟩⟩
  have hlayout : enc c p =
      [0x24, 0x43] ++ [c] ++ p ++ [crc8 ([0x24, 0x43] ++ [c] ++ p)] ++ [0x0A, 0x0D] :=
    List.append_cons (covered c p) _ _
  rw [← hlayout]
  rfl

/-- Settles O39: SER.ENC is the one instruction that can be refused, and the packet is six bytes longer than
the payload. -/
theorem serEncRefusesLongPayload : Obligations.SerEncRefusesLongPayload := by
  intro c p s
  refine ⟨?_, fun h => ⟨_, exec_serEnc c h s, Laws.length_packetBytes c p _⟩⟩
  rw [exec_refused_iff]
  constructor
  · rintro ⟨_, _, _, ⟨⟩, hlong⟩
    exact hlong
  · exact fun hlong => ⟨rfl, c, p, rfl, hlong⟩

end Sys2Proof.Machine

/-! ## A good packet received in HUNT0 -/

namespace Sys2Proof.Machine

section Reception
variable {x k : Byte} {p : List Byte}

/-- While a packet is fed to an empty buffer, the cells past what has been fed are not written (R85, R93). -/
theorem Codec.feeds_read_past_prefix {P : Params} {d : Codec} {bs : List Byte} {a : Nat} (hP : P.Legal)
    (hwf : d.buf.wf) (h0 : d.len = 0) (hl : p.length = ext x) (h : bs <+: packetBytes x p k)
    (ha : bs.length ≤ a) : (d.feeds P bs).buf.read a = d.buf.read a := by
  induction bs using List.reverseRecOn with
  | nil => rfl
  | append_singleton bs b ih =>
    have hprefix : bs <+: packetBytes x p k := (List.prefix_append bs [b]).trans h
    have hbytes := Codec.feeds_bytes_of_prefix hP hwf h0 hl hprefix
    have hlen : (d.feeds P bs).len = bs.length := by rw [← Codec.length_bytes, hbytes]
    rw [List.length_append, List.length_singleton] at ha
    rw [Codec.feeds_concat, Codec.feed_within_packet hP hl (by rwa [hbytes]),
      Codec.append_read_of_ne _ _ (by omega), ih hprefix (by omega)]

/-- The bytes of a serializer output that arrive at an empty buffer are received as a packet, and touch
nothing else (R89, R155). -/
theorem State.received_enc (s : State) (hwf : s.codec.buf.wf) (h0 : s.codec.len = 0)
    (hl : p.length = ext x) : Received x p s (s.receive (enc x p)) := by
  obtain ⟨_, hdone, _, hcmd, hpay, hbytes⟩ := packetRoundTrip params s.codec x p params_legal hwf h0 hl
  rw [← State.receive_codec] at hdone hcmd hpay hbytes
  exact
    { done := hdone
      bytes := hbytes
      cmd := hcmd
      xlen := by rw [Codec.xlen, hcmd, hl]
      pay := hpay
      crc := by rw [State.receive_codec, Codec.feeds_crc]
      cells := fun a ha => by
        rw [State.receive_codec]
        exact Codec.feeds_read_past_prefix params_legal hwf h0 hl (List.prefix_refl (enc x p))
          (by rwa [enc, Laws.length_packetBytes])
      returned := rfl
      others := s.receive_othersKept _ }

/-- A packet kind with the payload length of its command and the right checksum is received in HUNT0. -/
theorem received_of_packet? {i : Instr} {s : State} (hwf : s.codec.buf.wf) (h0 : s.codec.len = 0)
    (h : i.packet? = some (x, p, k)) (hl : p.length = ext x) (hk : k = crc8 (covered x p)) :
    ∃ t, exec i s = .next t ∧ Received x p s t := by
  subst hk
  exact ⟨_, exec_of_packet? h s, s.received_enc hwf h0 hl⟩

end Reception

/-- Settles O44: each kind is a packet without payload, as its command dictates. -/
theorem sixBytePacketsReceived : Obligations.SixBytePacketsReceived := fun _ _ hwf h0 =>
  ⟨received_of_packet? hwf h0 rfl rfl, received_of_packet? hwf h0 rfl rfl,
    received_of_packet? hwf h0 rfl rfl, received_of_packet? hwf h0 rfl rfl,
    fun _ hc => received_of_packet? hwf h0 rfl (ext_of_unassigned hc).symm⟩

/-- Settles O45: each kind is a packet with two payload bytes, as its command dictates. -/
theorem eightBytePacketsReceived : Obligations.EightBytePacketsReceived := fun _ _ _ _ hwf h0 =>
  ⟨received_of_packet? hwf h0 rfl rfl, received_of_packet? hwf h0 rfl rfl,
    received_of_packet? hwf h0 rfl rfl⟩

/-- Settles O46: each kind is a packet with fourteen payload bytes, as its command dictates. -/
theorem twentyBytePacketsReceived : Obligations.TwentyBytePacketsReceived := fun _ _ _ hwf h0 hl =>
  ⟨received_of_packet? hwf h0 rfl hl, received_of_packet? hwf h0 rfl hl⟩

/-! ## The baud-rate packet -/

/-- A serializer output decodes to the packet kind of its command, with the right checksum (R52, R53). -/
theorem decode_enc {c : Byte} {p : List Byte} (h : p.length = ext c) :
    decode (.wire (enc c p)) = .ok (packetInstr c p (crc8 (covered c p))) :=
  decodePacket_packetBytes _ h

/-- The rates of R137 and no others are recognised. -/
theorem recognise_eq_none_iff (rate : Nat) :
    recognise rate = none ↔ rate ∉ [50000, 100000, 250000, 500000, 1000000] := by
  unfold recognise
  split_ifs <;> simp [*]

/-- Settles O60: a rate is rejected when it is not recognised, and what is built is a packet with two
payload bytes, whichever they are. -/
theorem baudPacketBuilt : Obligations.BaudPacketBuilt := by
  intro rate
  refine ⟨by rw [baudPacket, Option.map_eq_none_iff, recognise_eq_none_iff], fun bs h => ?_⟩
  obtain ⟨r, _, rfl⟩ := Option.map_eq_some_iff.mp h
  exact ⟨_, _, rfl, decode_enc rfl⟩

end Sys2Proof.Machine

/-! ## The data packet builder and its accessors -/

namespace Sys2Proof.Machine

/-- A byte appended to a word is its lowest eight bits. -/
theorem toNat_append_byte {w : Nat} (x : BitVec w) (b : Byte) :
    (x ++ b).toNat = 256 * x.toNat + b.toNat := by
  rw [BitVec.toNat_append, ← Nat.shiftLeft_add_eq_or_of_lt b.isLt, Nat.shiftLeft_eq, Nat.mul_comm]

/-- The four identifier bytes are joined with the most significant one last (R136, R138). -/
theorem idBytes_joined (i0 i1 i2 i3 : Byte) :
    (i0.setWidth 32 + 256 * i1.setWidth 32 + 65536 * i2.setWidth 32 + 16777216 * i3.setWidth 32 :
      BitVec 32) = i3 ++ i2 ++ i1 ++ i0 := by
  apply BitVec.eq_of_toNat_eq
  simp only [toNat_append_byte, BitVec.toNat_add, BitVec.toNat_mul, BitVec.toNat_setWidth,
    BitVec.ofNat_eq_ofNat, BitVec.toNat_ofNat]
  omega

/-- An identifier is its four bytes joined (R136). -/
theorem idBytes_split (i : BitVec 32) :
    i.extractLsb' 24 8 ++ i.extractLsb' 16 8 ++ i.extractLsb' 8 8 ++ i.extractLsb' 0 8 = i := by
  rw [BitVec.extractLsb'_append_extractLsb'_eq_extractLsb' (show 24 = 16 + 8 from rfl),
    BitVec.extractLsb'_append_extractLsb'_eq_extractLsb' (show 16 = 8 + 8 from rfl),
    BitVec.extractLsb'_append_extractLsb'_eq_extractLsb' (show 8 = 0 + 8 from rfl)]
  exact BitVec.extractLsb'_eq_self

/-- The accessors, with the identifier as its bytes joined (R138). -/
theorem readData_cons (r fl i0 i1 i2 i3 : Byte) (d : List Byte) :
    readData (r :: fl :: i0 :: i1 :: i2 :: i3 :: d) =
      let n := (fl &&& 0x7F).toNat
      if n ≤ 8 then
        some { extended := fl.msb, id := i3 ++ i2 ++ i1 ++ i0, length := n, data := d.take n }
      else none := by
  rw [readData, idBytes_joined]

/-- The flag byte gives the format and the length back (R136, R138). -/
theorem flagByte_fields {f : CanFrame} (h : f.length ≤ 8) :
    (flagByte f).msb = f.extended ∧ (flagByte f &&& 0x7F).toNat = f.length := by
  obtain ⟨e, i, n, d⟩ := f
  have key : ∀ (e : Bool) (n : Fin 9),
      (flagByte ⟨e, 0, n, []⟩).msb = e ∧ (flagByte ⟨e, 0, n, []⟩ &&& 0x7F).toNat = n := by decide
  exact key e ⟨n, Nat.lt_succ_of_le h⟩

/-- The data field that the builder makes of a frame: the data bytes that the length counts, padded to
eight (R136). -/
def paddedData (f : CanFrame) : List Byte :=
  f.data.take f.length ++ List.replicate (8 - f.length) dataPad

section DataPayload
variable {f : CanFrame}

/-- The payload of a legal frame, field by field (R136). -/
theorem dataPayload_of_legal (h : f.legal) : dataPayload f =
    some (0x00 :: flagByte f :: f.id.extractLsb' 0 8 :: f.id.extractLsb' 8 8 :: f.id.extractLsb' 16 8 ::
      f.id.extractLsb' 24 8 :: paddedData f) := if_pos h

theorem legal_of_dataPayload {p : List Byte} (hp : dataPayload f = some p) : f.legal := by
  by_contra hf
  cases (if_neg hf).symm.trans hp

variable (h : f.legal)
include h

theorem take_paddedData : (paddedData f).take f.length = f.data.take f.length :=
  List.take_left' (List.length_take_of_le h.2)

theorem getElem?_paddedData_padding {i : Nat} (hi : f.length ≤ i) (h8 : i < 8) :
    (paddedData f)[i]? = some 0x00 := by
  rw [paddedData, List.getElem?_append_right (by rw [List.length_take_of_le h.2]; exact hi),
    List.length_take_of_le h.2, List.getElem?_replicate_of_lt (by omega)]

/-- The accessors read a frame back from its payload, with the data that its length counts (R136, R138). -/
theorem readData_of_dataPayload {p : List Byte} (hp : dataPayload f = some p) :
    readData p = some { f with data := f.data.take f.length } := by
  obtain rfl := Option.some.inj ((dataPayload_of_legal h).symm.trans hp)
  obtain ⟨hext, hlen⟩ := flagByte_fields h.1
  simp only [readData_cons, hext, hlen, if_pos h.1, idBytes_split, take_paddedData h]

end DataPayload

/-- Settles O57, by the fields of the payload: the accessors undo the flag byte, the split of the identifier
and the padding. -/
theorem dataPayloadInverts : Obligations.DataPayloadInverts := by
  intro f h8 hd
  have hf : f.legal := ⟨h8, hd⟩
  have hp := dataPayload_of_legal hf
  exact ⟨_, hp, length_of_dataPayload hp, readData_of_dataPayload hf hp, rfl, fun i hi hi8 => by
    rw [Nat.add_comm]
    exact getElem?_paddedData_padding hf hi hi8⟩

/-! ## What the Bridge delivers -/

/-- What the Bridge hands to its sinks for a completed packet with command `x` and payload `p` (R139). -/
def packetOut (x : Byte) (p : List Byte) : Option BridgeOut :=
  if x = codeRecvdata then (readData p).map fun f => { toCan := some f, toSerial := none }
  else if x = codeSetdataRsp then some { toCan := none, toSerial := some (enc codeSenddataReq []) }
  else some { toCan := none, toSerial := none }

/-- A receive-data packet is for the CAN sink (R138, R139). -/
theorem packetOut_recvdata (p : List Byte) : packetOut 0x36 p =
    (readData p).map fun f => { toCan := some f, toSerial := none } := rfl

/-- A set-data response is answered on the serial link (R139). -/
theorem packetOut_setdataRsp (p : List Byte) : packetOut 0x33 p =
    some { toCan := none, toSerial := some (enc codeSenddataReq []) } := rfl

/-- The handshake packet is a constant (R122, R139). -/
theorem enc_senddataReq : enc codeSenddataReq [] = [0x24, 0x43, 0x54, 0x27, 0x0A, 0x0D] := by decide +kernel

section Delivery
variable {b : Byte} {c : Codec}

theorem bridgeByte_of_not_valid (h : (c.feed params b).valid = false) :
    bridgeByte b c = some (c.feed params b, { toCan := none, toSerial := none }) :=
  if_neg (by simp [h])

theorem bridgeByte_of_valid (h : (c.feed params b).valid = true) :
    bridgeByte b c = (packetOut (c.feed params b).cmd (c.feed params b).pay).map
      fun out => ((c.feed params b).empty, out) := by
  rw [bridgeByte, if_pos h, packetOut]
  split_ifs
  · exact (Option.map_map ..).symm
  · rfl
  · rfl

theorem bridgeRun_singleton (b : Byte) (c : Codec) :
    bridgeRun [b] c = (bridgeByte b c).map fun (d, out) => (d, out.toCan.toList, out.toSerial.toList) := by
  rw [bridgeRun]
  cases bridgeByte b c with
  | none => rfl
  | some r => simp [bridgeRun]

/-- Over bytes that complete no packet the Bridge feeds its block and sends nothing (R139). -/
theorem bridgeRun_append_of_not_valid {u : List Byte} (v : List Byte)
    (h : ∀ w, w <+: u → (c.feeds params w).valid = false) :
    bridgeRun (u ++ v) c = bridgeRun v (c.feeds params u) := by
  induction u generalizing c with
  | nil => rfl
  | cons b u ih =>
    have hb : (c.feed params b).valid = false := h [b] (by simp)
    have hrest := ih (c := c.feed params b) fun w hw => h (b :: w) (List.cons_prefix_cons.mpr ⟨rfl, hw⟩)
    rw [List.cons_append, bridgeRun, bridgeByte_of_not_valid hb]
    simp [hrest]

/-- Receiving a packet in HUNT0 the Bridge sends what its command and payload call for, and releases it
(R89, R139). -/
theorem bridgeRun_enc {x : Byte} {p : List Byte} (hwf : c.buf.wf) (h0 : c.len = 0) (hl : p.length = ext x) :
    bridgeRun (enc x p) c = (packetOut x p).map fun out =>
      ((c.feeds params (enc x p)).empty, out.toCan.toList, out.toSerial.toList) := by
  obtain ⟨hpartial, _, hvalid, hcmd, hpay, _⟩ := packetRoundTrip params c x p params_legal hwf h0 hl
  obtain ⟨u, hu⟩ : ∃ u, enc x p = u ++ [stop1] :=
    ⟨covered x p ++ [crc8 (covered x p), stop0], by simp [enc, packetBytes]⟩
  have hlen : u.length < 6 + p.length := by
    rw [← Laws.length_packetBytes x p (crc8 (covered x p)), ← enc, hu]
    simp
  have hbefore : ∀ w, w <+: u → (c.feeds params w).valid = false := fun w hw => by
    have hw' : w = (enc x p).take w.length :=
      List.prefix_iff_eq_take.mp (hw.trans (hu ▸ List.prefix_append u [stop1]))
    rw [hw']
    exact (hpartial _ (hw.length_le.trans_lt hlen)).1
  rw [hu, Codec.feeds_concat] at hvalid hcmd hpay
  rw [hu, bridgeRun_append_of_not_valid _ hbefore, bridgeRun_singleton, bridgeByte_of_valid hvalid, hcmd,
    hpay, Option.map_map, Codec.feeds_concat]
  rfl

end Delivery

/-- Settles O59: a packet is valid only at its last byte, where the Bridge sends what its command and payload
call for; the accessors read a built payload back. -/
theorem bridgeDelivers : Obligations.BridgeDelivers := by
  refine ⟨fun c hwf h0 => ⟨fun r fl i0 i1 i2 i3 d hd => ?_, fun f p hp => ?_, ?_,
    fun x p hrecv hrsp hl => ?_⟩, fun g f h8 hd => ?_⟩
  · have hl : (r :: fl :: i0 :: i1 :: i2 :: i3 :: d).length = ext 0x36 := congrArg (· + 6) hd
    rw [bridgeRun_enc hwf h0 hl, packetOut_recvdata, readData_cons]
    dsimp only
    split
    · exact ⟨_, rfl, rfl⟩
    · rfl
  · have hl : p.length = ext 0x36 := length_of_dataPayload hp
    rw [bridgeRun_enc hwf h0 hl, packetOut_recvdata, readData_of_dataPayload (legal_of_dataPayload hp) hp]
    exact ⟨_, rfl, rfl⟩
  · rw [bridgeRun_enc hwf h0 rfl, packetOut_setdataRsp, enc_senddataReq]
    exact ⟨_, rfl, rfl⟩
  · rw [bridgeRun_enc hwf h0 hl, packetOut, if_neg hrecv, if_neg hrsp]
    exact ⟨_, rfl, rfl⟩
  · have hp := dataPayload_of_legal (f := f) ⟨h8, hd⟩
    refine ⟨_, hp, ?_⟩
    rw [Bridge.handle, dataPacket, hp]
    rfl

end Sys2Proof.Machine

/-! ## The hardware reset -/

namespace Sys2Proof.Machine

/-- The hardware reset is taken from the queue and rewrites the copy it addresses (R170). -/
theorem step_reset {s : State} {k : Fin ninst} {rest : List Input}
    (hp : s.pending = { copy := k, what := .reset } :: rest) :
    step s = .next (State.setCodec { s with pending := rest, sel := k } s.codecs[k].hardReset) := by
  simp only [step, s.take?_cons hp]
  rfl

theorem Codec.not_valid_hardReset (c : Codec) : c.hardReset.valid = false :=
  Codec.not_valid_of_lt (by rw [Codec.hardReset_len]; omega)

/-- Settles O11, by the rule of the reset: the addressed copy is the one written, and a buffer of length
zero is in HUNT0. -/
theorem hardwareReset : Obligations.HardwareReset := by
  intro s k rest hp
  refine ⟨_, step_reset hp, ?_⟩
  have hk := State.codecs_setCodec_sel { s with pending := rest, sel := k } s.codecs[k].hardReset
  rw [hk]
  exact ⟨rfl, fun j hj => State.codecs_setCodec_of_ne _ _ hj, rfl, rfl,
    Codec.phase_hunt0 (Codec.hardReset_len _), Codec.not_valid_hardReset _⟩

end Sys2Proof.Machine
